-- ==== Sys2Proof/Word.lean ====
section
/-! DEFINITION. The bit-vector types of LZU-BPU (00_scope.md R6, R8): each is named after what the spec moves in it. -/

namespace Sys2Proof

/-- A command word, `CMDW` = 64 bits (R6, R70). -/
abbrev CmdWord := BitVec 64

/-- One character code unit of IN and OUT, `UNIT` = 16 bits (R6, R51). -/
abbrev CodeUnit := BitVec 16

/-- A symbol value 0..63, `SYMBITS` = 6 bits (R6, R12). -/
abbrev SymVal := BitVec 6

/-- The value operand V of a command and the data of a response, `VWIDTH` = 32 bits (R6, R180). -/
abbrev Data := BitVec 32

end Sys2Proof
end

