-- ==== Sys2Proof/Syntax.lean ====
section
/-! DEFINITION. The commands of BPU-CMD 1: one constructor per row of spec/opcode_table.json (30_encoding.md R72), and
the pseudo-instructions of R78. -/

namespace Sys2Proof

/-- The channel selector `c` of the WT_* commands (10_state.md R28): `c = 0` names `WT[W]`, `c = 1` names `WT[R]`. -/
inductive Chan where
  | w
  | r
  deriving DecidableEq, Repr

/-- The field selector `s` of WT_READ (43_width.md R153): `s = 0` reads `nb`, `s = 1` reads `ei`. -/
inductive TrackerField where
  | nb
  | ei
  deriving DecidableEq, Repr

/-- The commands, with the operands R74 assembles. -/
inductive Instr where
  /-- NOP (44_control.md R170) -/
  | nop
  /-- W_INIT (41_writer.md R111) -/
  | wInit
  /-- W_BITS n, v (41_writer.md R112) -/
  | wBits (n : BitVec 6) (v : Data)
  /-- W_CODE v (41_writer.md R113) -/
  | wCode (v : Data)
  /-- W_FLUSH (41_writer.md R114) -/
  | wFlush
  /-- R_START (42_reader.md R132) -/
  | rStart
  /-- R_BITS n (42_reader.md R133) -/
  | rBits (n : BitVec 6)
  /-- R_CODE (42_reader.md R134) -/
  | rCode
  /-- WT_INIT c, n, e (43_width.md R150) -/
  | wtInit (c : Chan) (n : BitVec 6) (e : Data)
  /-- WT_STEP c (43_width.md R152) -/
  | wtStep (c : Chan)
  /-- WT_READ c, NB or EI (43_width.md R153) -/
  | wtRead (c : Chan) (f : TrackerField)
  /-- SYM_ENC v (40_alphabet.md R92) -/
  | symEnc (v : SymVal)
  /-- SYM_DEC u (40_alphabet.md R93) -/
  | symDec (u : CodeUnit)
  /-- REV16 x (40_alphabet.md R95) -/
  | rev16 (x : BitVec 16)
  /-- STATUS (`clr = false`) and STATUS.CLR (`clr = true`) (44_control.md R171) -/
  | status (clr : Bool)
  /-- the table's row "(reserved)": any word with OP = 0xF, `x` its other 60 bits (44_control.md R172) -/
  | reserved (x : BitVec 60)
  deriving DecidableEq, Repr

/-- The row's mnemonic in spec/opcode_table.json. -/
def Instr.mnemonic : Instr → String
  | .nop => "NOP"
  | .wInit => "W_INIT"
  | .wBits _ _ => "W_BITS"
  | .wCode _ => "W_CODE"
  | .wFlush => "W_FLUSH"
  | .rStart => "R_START"
  | .rBits _ => "R_BITS"
  | .rCode => "R_CODE"
  | .wtInit _ _ _ => "WT_INIT"
  | .wtStep _ => "WT_STEP"
  | .wtRead _ _ => "WT_READ"
  | .symEnc _ => "SYM_ENC"
  | .symDec _ => "SYM_DEC"
  | .rev16 _ => "REV16"
  | .status _ => "STATUS"
  | .reserved _ => "(reserved)"

/-- The pseudo-instructions of R78. -/
inductive Pseudo where
  /-- `W_EOS` -/
  | wEos
  /-- `WT_STEP2 ch` -/
  | wtStep2 (c : Chan)
  /-- `W_REF v` -/
  | wRef (v : Data)
  /-- `R_REF` -/
  | rRef
  deriving DecidableEq, Repr

end Sys2Proof
end

