-- ==== Sys2Proof/WellFormed.lean ====
section
/-! DEFINITION. What makes an instruction term one that a legal word can carry (30_encoding.md R71, R73). -/

namespace Sys2Proof

/-- R71: the legal values of the field N are 0..32; 32 is `MAXW` (R6, D6). -/
abbrev legalWidth (n : BitVec 6) : Bool := decide (n.toNat ≤ 32)

/-- An instruction is well-formed when its width operand, where it has one, is at most 32 (R73: "N <= 32"). Every other
operand's type already has exactly the bits its field has. -/
def Instr.wellFormed : Instr → Bool
  | .wBits n _ => legalWidth n
  | .rBits n => legalWidth n
  | .wtInit _ n _ => legalWidth n
  | .nop | .wInit | .wCode _ | .wFlush | .rStart | .rCode | .wtStep _ | .wtRead _ _ | .symEnc _ | .symDec _
  | .rev16 _ | .status _ | .reserved _ => true

end Sys2Proof
end

