-- ==== Sys2Proof/Decode.lean ====
section
/-! DEFINITION. The decoder (30_encoding.md R71 to R76), the table of legal words (R73), the encoder and the assembler's
operand checks (R77). -/

namespace Sys2Proof

/-- The fields of a command word (R71). -/
structure Fields where
  /-- OP, bits 63:60 -/
  op : BitVec 4
  /-- C, bit 59 -/
  c : BitVec 1
  /-- N, bits 58:53 -/
  n : BitVec 6
  /-- S, bit 52 -/
  s : BitVec 1
  /-- Z, bits 51:32 -/
  z : BitVec 20
  /-- V, bits 31:0 -/
  v : BitVec 32
  deriving DecidableEq, Repr

/-- R71: where each field stands in the word. -/
def Fields.ofWord (w : CmdWord) : Fields where
  op := w.extractLsb' 60 4
  c := w.extractLsb' 59 1
  n := w.extractLsb' 53 6
  s := w.extractLsb' 52 1
  z := w.extractLsb' 32 20
  v := w.extractLsb' 0 32

/-- Why a word is illegal, after the list of R76: (a) is the constructor `Instr.reserved`, the rest are these. -/
inductive Illegal where
  /-- R76 (b): a nonzero bit in Z -/
  | reservedBits
  /-- R76 (c): a nonzero field that the command does not use -/
  | unusedField
  /-- R76 (d): N in 33..63 -/
  | widthRange
  /-- R76 (e), (f): V has bits above the operand of SYM_ENC, SYM_DEC or REV16 -/
  | operandRange
  deriving DecidableEq, Repr

/-- One row's legality: Z and the unused fields are zero, and the row's extra condition holds. -/
def accept (f : Fields) (unusedZero : Bool) (inRange : Bool) (why : Illegal) (i : Instr) : Except Illegal Instr :=
  if f.z ≠ 0#20 then .error .reservedBits
  else if unusedZero = false then .error .unusedField
  else if inRange = false then .error why
  else .ok i

/-- C as a channel (R28). -/
def chanOf (c : BitVec 1) : Chan := if c = 0#1 then .w else .r

/-- S as the field selector of WT_READ (R71). -/
def trackerFieldOf (s : BitVec 1) : TrackerField := if s = 0#1 then .nb else .ei

/-- R72, R73, R76: the row of each opcode. Every field a row does not use is tested for zero; the reserved row keeps `low`,
all 60 bits below OP. -/
def decodeFields (f : Fields) (low : BitVec 60) : Except Illegal Instr :=
  let cz := decide (f.c = 0#1)
  let nz := decide (f.n = 0#6)
  let sz := decide (f.s = 0#1)
  let vz := decide (f.v = 0#32)
  match f.op.toNat with
  | 0x0 => accept f (cz && nz && sz && vz) true .unusedField .nop
  | 0x1 => accept f (cz && nz && sz && vz) true .unusedField .wInit
  | 0x2 => accept f (cz && sz) (legalWidth f.n) .widthRange (.wBits f.n f.v)
  | 0x3 => accept f (cz && nz && sz) true .unusedField (.wCode f.v)
  | 0x4 => accept f (cz && nz && sz && vz) true .unusedField .wFlush
  | 0x5 => accept f (cz && nz && sz && vz) true .unusedField .rStart
  | 0x6 => accept f (cz && sz && vz) (legalWidth f.n) .widthRange (.rBits f.n)
  | 0x7 => accept f (cz && nz && sz && vz) true .unusedField .rCode
  | 0x8 => accept f sz (legalWidth f.n) .widthRange (.wtInit (chanOf f.c) f.n f.v)
  | 0x9 => accept f (nz && sz && vz) true .unusedField (.wtStep (chanOf f.c))
  | 0xA => accept f (nz && vz) true .unusedField (.wtRead (chanOf f.c) (trackerFieldOf f.s))
  | 0xB => accept f (cz && nz && sz) (decide (f.v.extractLsb' 6 26 = 0#26)) .operandRange (.symEnc (f.v.extractLsb' 0 6))
  | 0xC => accept f (cz && nz && sz) (decide (f.v.extractLsb' 16 16 = 0#16)) .operandRange (.symDec (f.v.extractLsb' 0 16))
  | 0xD => accept f (cz && nz && sz) (decide (f.v.extractLsb' 16 16 = 0#16)) .operandRange (.rev16 (f.v.extractLsb' 0 16))
  | 0xE => accept f (cz && nz && vz) true .unusedField (.status (decide (f.s = 1#1)))
  | _ => .ok (.reserved low)

/-- R75: decoding reads the word alone. -/
def decode (w : CmdWord) : Except Illegal Instr := decodeFields (Fields.ofWord w) (w.extractLsb' 0 60)

/-- A word of the opcode table, its bits numbered as the table numbers them. A command is one 64-bit word moved whole
(R55, R70), so the table's numbering is the word's own. -/
def wordOfTable (nbits w : Nat) : CmdWord := BitVec.ofNat 64 (w % 2 ^ nbits)

/-- The instruction the decoder reads from a word of the opcode table; none where it refuses. -/
def decodeTableWord (nbits w : Nat) : Option Instr :=
  match decode (wordOfTable nbits w) with
  | .ok i => some i
  | .error _ => none

/-- A row of R73's table of legal words. -/
structure LegalRow where
  mnemonic : String
  match64 : CmdWord
  mask : CmdWord
  /-- the extra condition "N <= 32" -/
  width : Bool
  deriving DecidableEq, Repr

/-- R73: "A word matches a row when `(w & mask) = match` and the extra condition holds." -/
abbrev LegalRow.accepts (r : LegalRow) (w : CmdWord) : Prop :=
  w &&& r.mask = r.match64 ∧ (r.width = true → (w.extractLsb' 53 6).toNat ≤ 32)

/-- The table of R73, copied. The decoder does not use it: it stands here for statements to compare the decoder with. -/
def legalRows : List LegalRow :=
  [ ⟨"NOP", 0x0000000000000000, 0xFFFFFFFFFFFFFFFF, false⟩,
    ⟨"W_INIT", 0x1000000000000000, 0xFFFFFFFFFFFFFFFF, false⟩,
    ⟨"W_BITS", 0x2000000000000000, 0xF81FFFFF00000000, true⟩,
    ⟨"W_CODE", 0x3000000000000000, 0xFFFFFFFF00000000, false⟩,
    ⟨"W_FLUSH", 0x4000000000000000, 0xFFFFFFFFFFFFFFFF, false⟩ ] ++
  [ ⟨"R_START", 0x5000000000000000, 0xFFFFFFFFFFFFFFFF, false⟩,
    ⟨"R_BITS", 0x6000000000000000, 0xF81FFFFFFFFFFFFF, true⟩,
    ⟨"R_CODE", 0x7000000000000000, 0xFFFFFFFFFFFFFFFF, false⟩,
    ⟨"WT_INIT", 0x8000000000000000, 0xF01FFFFF00000000, true⟩,
    ⟨"WT_STEP", 0x9000000000000000, 0xF7FFFFFFFFFFFFFF, false⟩ ] ++
  [ ⟨"WT_READ", 0xA000000000000000, 0xF7EFFFFFFFFFFFFF, false⟩,
    ⟨"SYM_ENC", 0xB000000000000000, 0xFFFFFFFFFFFFFFC0, false⟩,
    ⟨"SYM_DEC", 0xC000000000000000, 0xFFFFFFFFFFFF0000, false⟩,
    ⟨"REV16", 0xD000000000000000, 0xFFFFFFFFFFFF0000, false⟩,
    ⟨"STATUS", 0xE000000000000000, 0xFFEFFFFFFFFFFFFF, false⟩ ]

/-- C of a channel (R77: "`W` assembles to c = 0 and `R` to c = 1"). -/
def Chan.bit : Chan → BitVec 1
  | .w => 0#1
  | .r => 1#1

/-- S of a field selector (R77). -/
def TrackerField.bit : TrackerField → BitVec 1
  | .nb => 0#1
  | .ei => 1#1

/-- R77's `op << 60 | c << 59 | n << 53 | s << 52 | v`. -/
def assembleWord (op : BitVec 4) (c : BitVec 1) (n : BitVec 6) (s : BitVec 1) (v : BitVec 32) : CmdWord :=
  (op.setWidth 64 <<< 60) ||| (c.setWidth 64 <<< 59) ||| (n.setWidth 64 <<< 53) ||| (s.setWidth 64 <<< 52) ||| v.setWidth 64

/-- The word of an instruction (R77; for the reserved row, R72's OP = 0xF with the other bits as they are). -/
def encode : Instr → CmdWord
  | .nop => assembleWord 0x0 0 0 0 0
  | .wInit => assembleWord 0x1 0 0 0 0
  | .wBits n v => assembleWord 0x2 0 n 0 v
  | .wCode v => assembleWord 0x3 0 0 0 v
  | .wFlush => assembleWord 0x4 0 0 0 0
  | .rStart => assembleWord 0x5 0 0 0 0
  | .rBits n => assembleWord 0x6 0 n 0 0
  | .rCode => assembleWord 0x7 0 0 0 0
  | .wtInit c n e => assembleWord 0x8 c.bit n 0 e
  | .wtStep c => assembleWord 0x9 c.bit 0 0 0
  | .wtRead c f => assembleWord 0xA c.bit 0 f.bit 0
  | .symEnc v => assembleWord 0xB 0 0 0 (v.setWidth 32)
  | .symDec u => assembleWord 0xC 0 0 0 (u.setWidth 32)
  | .rev16 x => assembleWord 0xD 0 0 0 (x.setWidth 32)
  | .status clr => assembleWord 0xE 0 0 (BitVec.ofBool clr) 0
  | .reserved x => (0xF#64 <<< 60) ||| x.setWidth 64

/-- R78: each pseudo-instruction is an exact expansion. -/
def Pseudo.expand : Pseudo → List Instr
  | .wEos => [.wCode 2#32]
  | .wtStep2 c => [.wtStep c, .wtStep c]
  | .wRef v => [.wCode v, .wtStep .w]
  | .rRef => [.rCode, .wtStep .r]

/-- A line of assembler syntax (R77, R78), its numbers as written. -/
inductive AsmLine where
  | nop
  | wInit
  | wBits (n v : Nat)
  | wCode (v : Nat)
  | wFlush
  | rStart
  | rBits (n : Nat)
  | rCode
  | wtInit (ch : Chan) (n e : Nat)
  | wtStep (ch : Chan)
  | wtRead (ch : Chan) (f : TrackerField)
  | symEnc (v : Nat)
  | symDec (u : Nat)
  | rev16 (x : Nat)
  | status
  | statusClr
  | wEos
  | wtStep2 (ch : Chan)
  | wRef (v : Nat)
  | rRef
  deriving DecidableEq, Repr

/-- A number as an operand of `width` bits, refused where it does not fit: R77's "An assembler refuses an operand out of
the field's range rather than truncating it". -/
def asmOperand (width : Nat) (k : Nat) : Option (BitVec width) :=
  if k < 2 ^ width then some (BitVec.ofNat width k) else none

/-- A number as a code width. DESIGN CHOICE (log entry 17): the range is R71's legal values 0..32, so 33 to 63 are refused as
well, though they fit the six bits of N. -/
def asmWidth (k : Nat) : Option (BitVec 6) := if k ≤ 32 then some (BitVec.ofNat 6 k) else none

/-- The commands a line stands for, none where an operand is out of range (R77, R78). -/
def AsmLine.toInstrs : AsmLine → Option (List Instr)
  | .nop => some [.nop]
  | .wInit => some [.wInit]
  | .wBits n v => (asmWidth n).bind fun n => (asmOperand 32 v).map fun v => [.wBits n v]
  | .wCode v => (asmOperand 32 v).map fun v => [.wCode v]
  | .wFlush => some [.wFlush]
  | .rStart => some [.rStart]
  | .rBits n => (asmWidth n).map fun n => [.rBits n]
  | .rCode => some [.rCode]
  | .wtInit ch n e => (asmWidth n).bind fun n => (asmOperand 32 e).map fun e => [.wtInit ch n e]
  | .wtStep ch => some [.wtStep ch]
  | .wtRead ch f => some [.wtRead ch f]
  | .symEnc v => (asmOperand 6 v).map fun v => [.symEnc v]
  | .symDec u => (asmOperand 16 u).map fun u => [.symDec u]
  | .rev16 x => (asmOperand 16 x).map fun x => [.rev16 x]
  | .status => some [.status false]
  | .statusClr => some [.status true]
  | .wEos => some Pseudo.wEos.expand
  | .wtStep2 ch => some (Pseudo.wtStep2 ch).expand
  | .wRef v => (asmOperand 32 v).map fun v => (Pseudo.wRef v).expand
  | .rRef => some Pseudo.rRef.expand

/-- The words a line assembles to (R77). -/
def AsmLine.assemble (l : AsmLine) : Option (List CmdWord) := l.toInstrs.map (·.map encode)

end Sys2Proof
end

