-- ==== Sys2Proof/Config.lean ====
section
/-! DEFINITION. What one implementation of LZU-BPU fixes (00_scope.md R7, the open parameters) and the free values. -/

namespace Sys2Proof

/-- `P_FLUSH_EMPTY`: what W_FLUSH does when the accumulator holds no bits (R7, R114, D8). -/
inductive FlushEmpty where
  /-- `NONE`: emit nothing. -/
  | emitNone
  /-- `ZERO_SYMBOL`: emit one symbol of value 0. -/
  | zeroSymbol
  deriving DecidableEq, Repr

/-- The open parameters of R7. They stand in `State` and no step changes them, so that a statement about every state
is a statement about every implementation. -/
structure Config where
  /-- `P_IN_CAP`: capacity of the input buffer IN, in symbols. -/
  inCap : Nat
  /-- `P_OUT_CAP`: capacity of the output queue OUT, in symbols. -/
  outCap : Nat
  /-- `P_FLUSH_EMPTY`. -/
  flushEmpty : FlushEmpty
  deriving DecidableEq, Repr

/-- The legal values of R7: both capacities are integers `≥ 1`. -/
abbrev Config.Legal (c : Config) : Prop := 1 ≤ c.inCap ∧ 1 ≤ c.outCap

/-- The values of R7's column "spec default for the test vectors": 64, 64, `NONE` (log entry 1). -/
def Config.testVectors : Config := { inCap := 64, outCap := 64, flushEmpty := .emitNone }

/-- FREE VALUE (log entry 4): the contents of cell `j` of IN after the `epoch`-th reset, which R31 calls
"unspecified; never read". No body: nothing can be proved about it. -/
opaque Config.freeCell : Nat → Nat → CodeUnit

end Sys2Proof
end

