-- ==== Sys2Proof/Machine/State.lean ====
section
/-! DEFINITION. The state of one LZU-BPU instance (10_state.md R20 to R31), the host port's pending actions and their
results (20_memory.md R58 to R62), why a step can stop, and the state after reset. -/

namespace Sys2Proof.Machine

/-- The response `(code, data)` that ends every command (60_exceptions.md R180). -/
structure Response where
  /-- the 4-bit response code of R181 -/
  code : BitVec 4
  data : Data
  deriving DecidableEq, Repr

/-- What the host can do to the block (20_memory.md R59 to R62). -/
inductive HostAction where
  /-- `ISSUE(w)` (R62) -/
  | issue (w : CmdWord)
  /-- `LOAD_IN(u_0 .. u_{k-1})` (R59) -/
  | loadIn (us : List CodeUnit)
  /-- `DRAIN_OUT(k)` (R60) -/
  | drainOut (k : Nat)
  /-- `RESET` (R61) -/
  | reset
  deriving DecidableEq, Repr

/-- What the host gets back: the response of an ISSUE (R62), the units a DRAIN_OUT returns (R60). -/
inductive HostResult where
  | response (r : Response)
  | drained (us : List CodeUnit)
  deriving DecidableEq, Repr

/-- The writer channel (10_state.md R23, R24). -/
structure Writer where
  /-- `W.acc` -/
  acc : SymVal
  /-- `W.pos`, values 0..5 -/
  pos : BitVec 3
  /-- `OUT`, `OUT[0]` first -/
  out : List CodeUnit
  deriving DecidableEq, Repr

/-- The reader channel (10_state.md R25, R26). -/
structure Reader where
  /-- `IN`, `P_IN_CAP` cells -/
  buf : List CodeUnit
  /-- `L` -/
  len : Nat
  /-- `R.act` -/
  act : Bool
  /-- `R.idx` -/
  idx : Nat
  /-- `R.cur` -/
  cur : SymVal
  /-- `R.rem`, values 0..6 -/
  rem : BitVec 3
  deriving DecidableEq, Repr

/-- A code-width tracker (10_state.md R27). -/
structure Tracker where
  /-- `nb`, values 0..32 -/
  nb : BitVec 6
  /-- `ei` -/
  ei : BitVec 32
  deriving DecidableEq, Repr

/-- The whole state. `cfg`, `freeCtr`, `pending` and `results` are the model's own fields (log entries 1, 4, 2, 3); the
rest is the table of R20. -/
structure State where
  /-- the open parameters of R7; no step changes them -/
  cfg : Config
  /-- `W.acc`, `W.pos`, `OUT` -/
  w : Writer
  /-- `IN`, `L`, `R.act`, `R.idx`, `R.cur`, `R.rem` -/
  r : Reader
  /-- `WT[W]` -/
  wtW : Tracker
  /-- `WT[R]` -/
  wtR : Tracker
  /-- `STAT.sticky`: bit 0 INV, 1 TRUNC, 2 OVF, 3 WOVF, 4 ILL, 5 NACT (R29) -/
  sticky : BitVec 6
  /-- how many resets have taken their free IN contents (R31: "unspecified") -/
  freeCtr : Nat
  /-- the host actions still to come, the next one first (R58) -/
  pending : List HostAction
  /-- what the host has got back so far, the oldest first (R60, R62) -/
  results : List HostResult
  deriving DecidableEq, Repr

/-- Why the machine can stop with a fault. -/
inductive Fault where
  /-- Raised by R_BITS and R_CODE when an open session meets a cell of IN that holds no alphabet unit (or no cell). R131:
  "never invalid: R_START validated IN[0..L-1]", so the spec gives no effect there. SAFE: no state that meets `State.Inv`
  raises it. -/
  | unvalidatedCell
  deriving DecidableEq, Repr

/-- Why a step can be refused. -/
inductive Refusal where
  /-- an instruction whose arm has no meaning yet; SAFE -/
  | notModelled (mnemonic : String)
  /-- the next host action is a LOAD_IN of more than `P_IN_CAP` units, which "has no move: the host cannot perform it"
  (R59); SAFE -/
  | loadTooLong
  /-- the next host action is a DRAIN_OUT of more than `|OUT|` elements, which "has no move" (R60); SAFE -/
  | drainTooLong
  deriving DecidableEq, Repr

/-- What a command or a host action ends in. -/
abbrev Result := Host.Outcome State Fault Refusal

/-- IN after the `epoch`-th reset: `P_IN_CAP` cells whose contents are free (R31, log entry 4). -/
def freeCells (cfg : Config) (epoch : Nat) : List CodeUnit := (List.range cfg.inCap).map (Config.freeCell epoch)

/-- R31, R210: the value of every piece of state after RESET or power-on. -/
def State.powerOn (cfg : Config) (epoch : Nat) : State where
  cfg := cfg
  w := { acc := 0#6, pos := 0#3, out := [] }
  r := { buf := freeCells cfg epoch, len := 0, act := false, idx := 0, cur := 0#6, rem := 0#3 }
  wtW := { nb := 0#6, ei := 0#32 }
  wtR := { nb := 0#6, ei := 0#32 }
  sticky := 0#6
  freeCtr := epoch + 1
  pending := []
  results := []

/-- The machine right after power-on, with the parameter values of R7's last column (log entry 1) and no host action
pending. -/
def State.reset : State := State.powerOn Config.testVectors 0

end Sys2Proof.Machine
end

