-- ==== Sys2Proof/Machine/Flags.lean ====
section
/-! DEFINITION. The errors, their response codes and sticky bits (60_exceptions.md R181), and the status register
(10_state.md R29). -/

namespace Sys2Proof.Machine

/-- The errors a command can raise (R181, R182). -/
inductive Err where
  | invalidInput
  | truncated
  | outputOverflow
  | widthOverflow
  | illegalCommand
  | notActive
  deriving DecidableEq, Repr

/-- R181: the response code of success. -/
def okCode : BitVec 4 := 0#4

/-- R181: the response code of an error. -/
def Err.code : Err → BitVec 4
  | .invalidInput => 1#4
  | .truncated => 2#4
  | .outputOverflow => 3#4
  | .widthOverflow => 4#4
  | .illegalCommand => 5#4
  | .notActive => 6#4

/-- R181: the sticky bit of an error, as a mask over `STAT.sticky`. -/
def Err.stickyMask : Err → BitVec 6
  | .invalidInput => 0b000001#6
  | .truncated => 0b000010#6
  | .outputOverflow => 0b000100#6
  | .widthOverflow => 0b001000#6
  | .illegalCommand => 0b010000#6
  | .notActive => 0b100000#6

/-- R29: `STAT = zext_32({R.rem, W.pos, R.act, 0b00, STAT.sticky})`. -/
def State.stat (s : State) : Data :=
  (s.r.rem ++ s.w.pos ++ BitVec.ofBool s.r.act ++ 0b00#2 ++ s.sticky).setWidth 32

end Sys2Proof.Machine
end

