-- ==== Sys2Proof/Machine/Operands.lean ====
section
/-! DEFINITION. The pure functions on operands: the alphabet (40_alphabet.md R90, R91), the bit reversal (R94) and the
two bit orders (20_memory.md R52, R53). -/

namespace Sys2Proof.Machine

/-- The alphabet as "an ordered sequence of 64 printable symbols" (R12): the table of R90 in the order of its values,
A-Z, a-z, 0-9, `+`, `-`. -/
def alphabet : List CodeUnit :=
  [0x41, 0x42, 0x43, 0x44, 0x45, 0x46, 0x47, 0x48, 0x49, 0x4A, 0x4B, 0x4C, 0x4D, 0x4E, 0x4F, 0x50] ++
  [0x51, 0x52, 0x53, 0x54, 0x55, 0x56, 0x57, 0x58, 0x59, 0x5A, 0x61, 0x62, 0x63, 0x64, 0x65, 0x66] ++
  [0x67, 0x68, 0x69, 0x6A, 0x6B, 0x6C, 0x6D, 0x6E, 0x6F, 0x70, 0x71, 0x72, 0x73, 0x74, 0x75, 0x76] ++
  [0x77, 0x78, 0x79, 0x7A, 0x30, 0x31, 0x32, 0x33, 0x34, 0x35, 0x36, 0x37, 0x38, 0x39, 0x2B, 0x2D]

/-- `symbolFor(v)` (R90). The table has an entry for each of the 64 values, so the default is never taken. -/
def symbolFor (v : SymVal) : CodeUnit := alphabet.getD v.toNat 0#16

/-- `valueFor(u)` (R91): the place of `u` in the alphabet, none for `invalid`. -/
def valueFor (u : CodeUnit) : Option SymVal := (alphabet.findIdx? (· == u)).map (BitVec.ofNat 6)

/-- The bits of a code of width `n` in stream order: least significant bit first (R52). -/
def codeBits (n : Nat) (v : Data) : List Bool := (List.range n).map v.getLsbD

/-- The bits of a symbol value in stream order: bit 5 first, bit 0 last (R53). -/
def symbolBits (v : SymVal) : List Bool := (List.range 6).map fun i => v.getLsbD (5 - i)

/-- The number whose bits, least significant first, are `bs`: the loop `r <- r | (b << i)` of R133. -/
def valueOfBits : List Bool → Nat
  | [] => 0
  | b :: bs => b.toNat + 2 * valueOfBits bs

/-- `reverseBits16(x)` (R94): the `r` with `r[i] = x[15 - i]` for every i in 0..15. -/
def reverseBits16 (x : BitVec 16) : BitVec 16 :=
  BitVec.ofNat 16 (valueOfBits ((List.range 16).map fun i => x.getLsbD (15 - i)))

end Sys2Proof.Machine
end

