-- ==== Sys2Proof/Machine/Ops.lean ====
section
/-! DEFINITION. The shared operations of the command rules: ending a command (60_exceptions.md R180, R183), the write
primitive (41_writer.md R110), the read primitive (42_reader.md R130, R131), the trackers (43_width.md R151). -/

namespace Sys2Proof.Machine

/-- The host gets one more result. -/
def State.deliver (s : State) (x : HostResult) : State := { s with results := s.results ++ [x] }

/-- `respond(d)` (R180): the command ends with `(OK, d)`. -/
def State.respond (s : State) (d : Data) : State := s.deliver (.response { code := okCode, data := d })

/-- `raise E(d)`, the block's whole error entry (R183, R186): the sticky bit of `E` is set, the response is `(E, d)`,
nothing else changes. There is no return from it (R187): the block accepts the next command at once. -/
def State.raise (s : State) (e : Err) (d : Data) : State :=
  { s with sticky := s.sticky ||| e.stickyMask }.deliver (.response { code := e.code, data := d })

/-- `WT[c]` (R28). -/
def State.tracker (s : State) : Chan → Tracker
  | .w => s.wtW
  | .r => s.wtR

/-- `WT[c] <- t`. -/
def State.setTracker (s : State) (c : Chan) (t : Tracker) : State :=
  match c with
  | .w => { s with wtW := t }
  | .r => { s with wtR := t }

/-- `MemWrite(OUT, |OUT|, 1, u)` (R10): append one unit to OUT. -/
def Writer.append (w : Writer) (u : CodeUnit) : Writer := { w with out := w.out ++ [u] }

/-- `PutBit(b)` (R110). -/
def Writer.putBit (w : Writer) (b : Bool) : Writer :=
  let acc := (w.acc <<< 1) ||| BitVec.setWidth 6 (BitVec.ofBool b)
  let pos := w.pos + 1#3
  if pos = 6#3 then { w.append (symbolFor acc) with acc := 0#6, pos := 0#3 }
  else { w with acc := acc, pos := pos }

/-- PutBit of each bit in turn. -/
def Writer.putBits (w : Writer) (bs : List Bool) : Writer := bs.foldl Writer.putBit w

/-- `floor((W.pos + n) / 6)`: how many symbols a write of `n` bits will emit (R112). -/
def Writer.emits (w : Writer) (n : Nat) : Nat := (w.pos.toNat + n) / 6

/-- R112 and R113: write the low `n` bits of `v`, or raise OutputOverflow before the first PutBit. -/
def writeCode (n : Nat) (v : Data) (s : State) : Result :=
  let k := s.w.emits n
  if s.cfg.outCap < s.w.out.length + k then .next (s.raise .outputOverflow (BitVec.ofNat 32 k))
  else .next ({ s with w := s.w.putBits (codeBits n v) }.respond (BitVec.ofNat 32 k))

/-- `Avail()` (R130). -/
def Reader.avail (r : Reader) : Nat := r.rem.toNat + 6 * (r.len - r.idx)

/-- Clear R.act, R.idx, R.cur and R.rem: no session is open (R59, R132). -/
def Reader.close (r : Reader) : Reader := { r with act := false, idx := 0, cur := 0#6, rem := 0#3 }

/-- The first half of GetBit (R131): unpack the cell `R.idx`; none where it is no alphabet unit, which R131 says never
happens. -/
def Reader.unpack (r : Reader) : Option Reader :=
  match r.buf[r.idx]? with
  | none => none
  | some u =>
    match valueFor u with
    | none => none
    | some v => some { r with cur := v, idx := r.idx + 1, rem := 6#3 }

/-- `GetBit()` (R131). -/
def Reader.getBit (r : Reader) : Option (Bool × Reader) :=
  match (if r.rem = 0#3 then r.unpack else some r) with
  | none => none
  | some r => some (r.cur.getLsbD (r.rem.toNat - 1), { r with rem := r.rem - 1#3 })

/-- `n` GetBits in turn: the bits in stream order and the reader after them. -/
def Reader.getBits : Nat → Reader → Option (List Bool × Reader)
  | 0, r => some ([], r)
  | n + 1, r =>
    match r.getBit with
    | none => none
    | some (b, r) =>
      match Reader.getBits n r with
      | none => none
      | some (bs, r) => some (b :: bs, r)

/-- R133 and R134: read a code of `n` bits, or raise NotActive or Truncated with no bit consumed. -/
def readCode (n : Nat) (s : State) : Result :=
  if s.r.act = false then .next (s.raise .notActive 0#32)
  else if s.r.avail < n then .next (s.raise .truncated (BitVec.ofNat 32 s.r.avail))
  else
    match s.r.getBits n with
    | none => .fault .unvalidatedCell
    | some (bs, r) => .next ({ s with r := r }.respond (BitVec.ofNat 32 (valueOfBits bs)))

/-- The units the host loaded: `IN[0..L-1]` (R25). -/
def Reader.loaded (r : Reader) : List CodeUnit := r.buf.take r.len

/-- The lowest index of a loaded cell that is not an alphabet unit (R132). -/
def Reader.firstInvalid (r : Reader) : Option Nat := r.loaded.findIdx? fun u => (valueFor u).isNone

/-- `Step(T)` (R151): the tracker after one transition step and whether the width grew; none where it raises
WidthOverflow. -/
def Tracker.step (t : Tracker) : Option (Tracker × Bool) :=
  if t.ei = 0#32 then
    if t.nb = 32#6 then none
    else
      let nb := t.nb + 1#6
      some ({ nb := nb, ei := BitVec.ofNat 32 (2 ^ nb.toNat - 1) }, true)
  else some ({ t with ei := t.ei - 1#32 }, false)

end Sys2Proof.Machine
end

