-- ==== Sys2Proof/Machine/Alphabet.lean ====
section
/-! DEFINITION. The alphabet family: SYM_ENC, SYM_DEC, REV16 (40_alphabet.md R92, R93, R95). -/

namespace Sys2Proof.Machine

/-- R92 -/
def execSymEnc (v : SymVal) (s : State) : Result := .next (s.respond ((symbolFor v).setWidth 32))

/-- R93 -/
def execSymDec (u : CodeUnit) (s : State) : Result :=
  match valueFor u with
  | none => .next (s.raise .invalidInput (u.setWidth 32))
  | some v => .next (s.respond (v.setWidth 32))

/-- R95 -/
def execRev16 (x : BitVec 16) (s : State) : Result := .next (s.respond ((reverseBits16 x).setWidth 32))

end Sys2Proof.Machine
end

