-- ==== Sys2Proof/Machine/BitReader.lean ====
section
/-! DEFINITION. The reader family: R_START, R_BITS, R_CODE (42_reader.md R132 to R134). -/

namespace Sys2Proof.Machine

/-- R132: the reader registers are cleared even when it raises. L and the index `j` are cut to 32 bits (DEDUCED, log entry
6). -/
def execRStart (s : State) : Result :=
  let s := { s with r := s.r.close }
  if s.r.len = 0 then .next (s.raise .invalidInput 0xFFFFFFFF#32)
  else
    match s.r.firstInvalid with
    | some j => .next (s.raise .invalidInput (BitVec.ofNat 32 j))
    | none => .next ({ s with r := { s.r with act := true } }.respond (BitVec.ofNat 32 s.r.len))

/-- R133 -/
def execRBits (n : BitVec 6) (s : State) : Result := readCode n.toNat s

/-- R134: the width is `WT[R].nb`, "read when the command executes". -/
def execRCode (s : State) : Result := readCode s.wtR.nb.toNat s

end Sys2Proof.Machine
end

