-- ==== Sys2Proof/Machine/BitWriter.lean ====
section
/-! DEFINITION. The writer family: W_INIT, W_BITS, W_CODE, W_FLUSH (41_writer.md R111 to R114). -/

namespace Sys2Proof.Machine

/-- R111 -/
def execWInit (s : State) : Result :=
  .next ({ s with w := { acc := 0#6, pos := 0#3, out := [] } }.respond 0#32)

/-- R112 -/
def execWBits (n : BitVec 6) (v : Data) (s : State) : Result := writeCode n.toNat v s

/-- R113: the width is `WT[W].nb`, "read when the command executes". -/
def execWCode (v : Data) (s : State) : Result := writeCode s.wtW.nb.toNat v s

/-- Emit one symbol and empty the accumulator, or raise OutputOverflow(1) (R114). -/
def flushSymbol (u : CodeUnit) (s : State) : Result :=
  if s.cfg.outCap < s.w.out.length + 1 then .next (s.raise .outputOverflow 1#32)
  else .next ({ s with w := { s.w.append u with acc := 0#6, pos := 0#3 } }.respond 1#32)

/-- The accumulator padded with zero bits to a whole symbol: `(W.acc << (6 - W.pos))[5:0]` (R114). -/
def Writer.padded (w : Writer) : SymVal := w.acc <<< (6 - w.pos.toNat)

/-- `MemWrite(OUT, |OUT|, 1, symbolFor(0))` with the accumulator as it is, or OutputOverflow(1): the case `ZERO_SYMBOL`
of R114. -/
def flushZeroSymbol (s : State) : Result :=
  if s.cfg.outCap < s.w.out.length + 1 then .next (s.raise .outputOverflow 1#32)
  else .next ({ s with w := s.w.append (symbolFor 0#6) }.respond 1#32)

/-- R114 -/
def execWFlush (s : State) : Result :=
  if s.w.pos = 0#3 then
    match s.cfg.flushEmpty with
    | .emitNone => .next (s.respond 0#32)
    | .zeroSymbol => flushZeroSymbol s
  else flushSymbol (symbolFor s.w.padded) s

end Sys2Proof.Machine
end

