-- ==== Sys2Proof/Machine/Control.lean ====
section
/-! DEFINITION. The control family: NOP, STATUS, the reserved opcode (44_control.md R170 to R172). -/

namespace Sys2Proof.Machine

/-- R170 -/
def execNop (s : State) : Result := .next (s.respond 0#32)

/-- R171: STAT is read before any clearing. -/
def execStatus (clr : Bool) (s : State) : Result :=
  .next ((if clr then { s with sticky := 0#6 } else s).respond s.stat)

/-- R172: a word with OP = 0xF raises IllegalCommand(0), whatever its other bits. -/
def execReserved (_x : BitVec 60) (s : State) : Result := .next (s.raise .illegalCommand 0#32)

end Sys2Proof.Machine
end

