-- ==== Sys2Proof/Machine/Width.lean ====
section
/-! DEFINITION. The width family: WT_INIT, WT_STEP, WT_READ (43_width.md R150, R152, R153). -/

namespace Sys2Proof.Machine

/-- R150 -/
def execWtInit (c : Chan) (n : BitVec 6) (e : Data) (s : State) : Result :=
  .next ((s.setTracker c { nb := n, ei := e }).respond 0#32)

/-- R152 -/
def execWtStep (c : Chan) (s : State) : Result :=
  match (s.tracker c).step with
  | none => .next (s.raise .widthOverflow 32#32)
  | some (t, grew) => .next ((s.setTracker c t).respond ((BitVec.ofBool grew).setWidth 32))

/-- R153 -/
def execWtRead (c : Chan) (f : TrackerField) (s : State) : Result :=
  match f with
  | .nb => .next (s.respond ((s.tracker c).nb.setWidth 32))
  | .ei => .next (s.respond (s.tracker c).ei)

end Sys2Proof.Machine
end

