-- ==== Sys2Proof/Machine/Dispatch.lean ====
section
/-! DEFINITION. One arm per constructor of Instr (30_encoding.md R72). -/

namespace Sys2Proof.Machine

def exec (i : Instr) (s : State) : Host.Outcome State Fault Refusal :=
  match i with
  | .nop => Sys2Proof.Machine.execNop s
  | .wInit => Sys2Proof.Machine.execWInit s
  | .wBits n v => Sys2Proof.Machine.execWBits n v s
  | .wCode v => Sys2Proof.Machine.execWCode v s
  | .wFlush => Sys2Proof.Machine.execWFlush s
  | .rStart => Sys2Proof.Machine.execRStart s
  | .rBits n => Sys2Proof.Machine.execRBits n s
  | .rCode => Sys2Proof.Machine.execRCode s
  | .wtInit c n e => Sys2Proof.Machine.execWtInit c n e s
  | .wtStep c => Sys2Proof.Machine.execWtStep c s
  | .wtRead c f => Sys2Proof.Machine.execWtRead c f s
  | .symEnc v => Sys2Proof.Machine.execSymEnc v s
  | .symDec u => Sys2Proof.Machine.execSymDec u s
  | .rev16 x => Sys2Proof.Machine.execRev16 x s
  | .status clr => Sys2Proof.Machine.execStatus clr s
  | .reserved x => Sys2Proof.Machine.execReserved x s

end Sys2Proof.Machine
end

