-- ==== Sys2Proof/Machine/HostPort.lean ====
section
/-! DEFINITION. The host port: what each host action does (20_memory.md R59 to R62). -/

namespace Sys2Proof.Machine

/-- `ISSUE(w)` (R62, R75): decode `w`, then execute it; a word no row matches raises IllegalCommand(0). -/
def issue (w : CmdWord) (s : State) : Result :=
  match decode w with
  | .ok i => exec i s
  | .error _ => .next (s.raise .illegalCommand 0#32)

/-- `LOAD_IN(us)` (R59): the session ends; the cells past the loaded ones keep what they hold (DEDUCED, log entry 7). -/
def loadIn (us : List CodeUnit) (s : State) : Result :=
  if s.cfg.inCap < us.length then .refused .loadTooLong
  else .next { s with r := { s.r.close with buf := us ++ s.r.buf.drop us.length, len := us.length } }

/-- `DRAIN_OUT(k)` (R60): the first `k` units of OUT go to the host. -/
def drainOut (k : Nat) (s : State) : Result :=
  if s.w.out.length < k then .refused .drainTooLong
  else .next ({ s with w := { s.w with out := s.w.out.drop k } }.deliver (.drained (s.w.out.take k)))

/-- `RESET` (R61): every piece of R20's state at its value in R31. The parameters, the host's actions still to come and
what the host already got are not the block's state. -/
def hostReset (s : State) : Result :=
  .next { State.powerOn s.cfg s.freeCtr with pending := s.pending, results := s.results }

/-- One host action (R58). -/
def perform (a : HostAction) (s : State) : Result :=
  match a with
  | .issue w => issue w s
  | .loadIn us => loadIn us s
  | .drainOut k => drainOut k s
  | .reset => hostReset s

/-- Take the next pending host action and perform it; with none pending the block "holds its state and does nothing"
(60_exceptions.md R193). -/
def nextAction (s : State) : Result :=
  match s.pending with
  | [] => .next s
  | a :: rest => perform a { s with pending := rest }

/-- The host presents `w` on the command port as its next action. -/
def State.present (s : State) (w : CmdWord) : State := { s with pending := .issue w :: s.pending }

end Sys2Proof.Machine
end

