-- ==== Sys2Proof/Machine/Step.lean ====
section
/-! DEFINITION. One step: the next host action, in the order of arrival (20_memory.md R58). -/

namespace Sys2Proof.Machine

/-- One step performs one whole host action; everything inside it is atomic (R11, R58). -/
def step (s : State) : Host.Outcome State Fault Refusal := nextAction s

/-- The block has no program counter and fetches nothing (R21): the host presents each command on the command port (R62).
The next word `step` runs is the one in front of the pending actions, so the table's word is put there. -/
def State.withFetchWord (s : State) (nbits w : Nat) : State := s.present (wordOfTable nbits w)

end Sys2Proof.Machine
end

