-- ==== Sys2Proof/Safety.lean ====
section
/-! DEFINITION. The invariant of the block (10_state.md R20 to R27), and the terms statements are written in: the bit
streams of 20_memory.md R54 and sequences of commands. -/

namespace Sys2Proof.Machine

/-- The 64 units of R90. -/
abbrev isAlphabet (u : CodeUnit) : Bool := (valueFor u).isSome

/-- R23, R24, R51: `0 <= W.pos <= 5`, `W.acc < 2^W.pos`, OUT holds alphabet units. -/
abbrev Writer.Ok (w : Writer) : Prop :=
  w.pos.toNat ≤ 5 ∧ w.acc.toNat < 2 ^ w.pos.toNat ∧ ∀ u ∈ w.out, isAlphabet u = true

/-- R25, R26, R132: IN has its `cap` cells, `L` and `R.idx` are in range, `R.rem <= 6`, no session leaves a trace, an
open session covers at least one cell and only validated ones, and `R.cur` is the value of the cell last unpacked. -/
abbrev Reader.Ok (cap : Nat) (r : Reader) : Prop :=
  r.buf.length = cap ∧ r.len ≤ cap ∧ r.idx ≤ r.len ∧ r.rem.toNat ≤ 6 ∧ (r.idx = 0 → r.rem = 0#3) ∧
  (r.act = false → r.idx = 0 ∧ r.rem = 0#3 ∧ r.cur = 0#6) ∧
  (r.act = true → 0 < r.len ∧ ∀ u ∈ r.loaded, isAlphabet u = true) ∧
  (0 < r.idx → (r.buf[r.idx - 1]?).bind valueFor = some r.cur)

/-- R27: `nb` is in 0..32. -/
abbrev Tracker.Ok (t : Tracker) : Prop := t.nb.toNat ≤ 32

/-- What every state a run reaches satisfies: R7's legal parameters, and the ranges and invariants of R20 to R27. -/
abbrev State.Inv (s : State) : Prop :=
  s.cfg.Legal ∧ s.w.Ok ∧ s.w.out.length ≤ s.cfg.outCap ∧ s.r.Ok s.cfg.inCap ∧ s.wtW.Ok ∧ s.wtR.Ok

/-- A pending action that has a move in `s` (R59, R60). -/
def State.CanPerform (s : State) : HostAction → Prop
  | .issue _ => True
  | .loadIn us => us.length ≤ s.cfg.inCap
  | .drainOut k => k ≤ s.w.out.length
  | .reset => True

/-- `Bits(S)` of a sequence of code units (R54); a unit outside the alphabet has no bits. -/
def unitBits (us : List CodeUnit) : List Bool :=
  us.flatMap fun u => match valueFor u with
    | some v => symbolBits v
    | none => []

/-- The bits the writer holds that are not yet packed, the first-written first (R23). -/
def Writer.heldBits (w : Writer) : List Bool :=
  (List.range w.pos.toNat).map fun i => w.acc.getLsbD (w.pos.toNat - 1 - i)

/-- The whole stream a writer has been given and not yet handed to the host: OUT and then the accumulator. -/
def Writer.stream (w : Writer) : List Bool := unitBits w.out ++ w.heldBits

/-- The bits the reader has still to deliver, in order: what is left of `R.cur` (R26), then the cells `R.idx` to `L-1`. -/
def Reader.stream (r : Reader) : List Bool :=
  ((List.range r.rem.toNat).map fun i => r.cur.getLsbD (r.rem.toNat - 1 - i)) ++ unitBits (r.loaded.drop r.idx)

/-- `s` after a response of `code` and `data` and nothing else. -/
def State.answered (s : State) (code : BitVec 4) (data : Data) : State :=
  { s with results := s.results ++ [.response { code := code, data := data }] }

/-- What ISSUE of a word with OP = `op` does (R71, R73 to R76, and the lines "Operands", "Encoding" and "Errors" of the
command's own rule): where the word's fields meet `legal` it executes the command `i` they give; where they do not it raises
IllegalCommand(0), which sets STAT.ILL and changes nothing else. -/
def IssuedWords (op : BitVec 4) (legal : Fields → Prop) (i : Fields → Instr) : Prop :=
  ∀ (s : State) (w : CmdWord), (Fields.ofWord w).op = op →
    (legal (Fields.ofWord w) → issue w s = exec (i (Fields.ofWord w)) s) ∧
    (¬ legal (Fields.ofWord w) → issue w s = .next ({ s with sticky := s.sticky ||| 0b010000#6 }.answered 5#4 0#32))

/-- Commands executed one after another, stopping at the first that does not go on. -/
def execAll : List Instr → State → Result
  | [], s => .next s
  | i :: is, s =>
    match exec i s with
    | .next s' => execAll is s'
    | .fault f => .fault f
    | .refused r => .refused r

/-- A command that writes a code (R112, R113). -/
def isWrite : Instr → Bool
  | .wBits _ _ | .wCode _ => true
  | .nop | .wInit | .wFlush | .rStart | .rBits _ | .rCode | .wtInit _ _ _ | .wtStep _ | .wtRead _ _ | .symEnc _
  | .symDec _ | .rev16 _ | .status _ | .reserved _ => false

/-- The bits a write adds to the stream, least significant bit of the code first (R52), at the code width `nb` of
`WT[W]`; no bits for a command that is no write. -/
def writtenBits (nb : BitVec 6) : Instr → List Bool
  | .wBits n v => (List.range n.toNat).map v.getLsbD
  | .wCode v => (List.range nb.toNat).map v.getLsbD
  | .nop | .wInit | .wFlush | .rStart | .rBits _ | .rCode | .wtInit _ _ _ | .wtStep _ | .wtRead _ _ | .symEnc _
  | .symDec _ | .rev16 _ | .status _ | .reserved _ => []

/-- The illegal encodings as R76 lists them, (a) to (f); which fields a command uses is R72's column "uses". -/
def illegalByList (w : CmdWord) : Prop :=
  let op := (w.extractLsb' 60 4).toNat
  let v := w.extractLsb' 0 32
  op = 0xF ∨
  w.extractLsb' 32 20 ≠ 0#20 ∨
  (op ∉ [0x8, 0x9, 0xA] ∧ w.extractLsb' 59 1 ≠ 0#1) ∨
  (op ∉ [0x2, 0x6, 0x8] ∧ w.extractLsb' 53 6 ≠ 0#6) ∨
  (op ∉ [0xA, 0xE] ∧ w.extractLsb' 52 1 ≠ 0#1) ∨
  (op ∉ [0x2, 0x3, 0x8, 0xB, 0xC, 0xD] ∧ v ≠ 0#32) ∨
  (op ∈ [0x2, 0x6, 0x8] ∧ 33 ≤ (w.extractLsb' 53 6).toNat) ∨
  (op = 0xB ∧ v.extractLsb' 6 26 ≠ 0#26) ∨
  (op ∈ [0xC, 0xD] ∧ v.extractLsb' 16 16 ≠ 0#16)

/-- Two states that differ at most in the cells of IN at index `L` and above (R25). -/
def SameLiveCells (s t : State) : Prop :=
  t = { s with r := { s.r with buf := t.r.buf } } ∧ t.r.buf.length = s.r.buf.length ∧
  ∀ j, j < s.r.len → t.r.buf[j]? = s.r.buf[j]?

/-- The commands of the writer side: the writer family and the tracker commands with `c = W` (R5, R27). -/
def writerSide : Instr → Bool
  | .wInit | .wBits _ _ | .wCode _ | .wFlush | .wtInit .w _ _ | .wtStep .w | .wtRead .w _ => true
  | .nop | .rStart | .rBits _ | .rCode | .wtInit .r _ _ | .wtStep .r | .wtRead .r _ | .symEnc _ | .symDec _ | .rev16 _
  | .status _ | .reserved _ => false

/-- The commands of the reader side: the reader family and the tracker commands with `c = R` (R5, R27). -/
def readerSide : Instr → Bool
  | .rStart | .rBits _ | .rCode | .wtInit .r _ _ | .wtStep .r | .wtRead .r _ => true
  | .nop | .wInit | .wBits _ _ | .wCode _ | .wFlush | .wtInit .w _ _ | .wtStep .w | .wtRead .w _ | .symEnc _ | .symDec _
  | .rev16 _ | .status _ | .reserved _ => false

/-- The W_BITS commands that write the codes `(n, v)` in order. -/
def writeCodes (codes : List (BitVec 6 × Data)) : List Instr := codes.map fun c => .wBits c.1 c.2

/-- The R_BITS commands that read codes of the same widths. -/
def readCodes (codes : List (BitVec 6 × Data)) : List Instr := codes.map fun c => .rBits c.1

/-- The number of bits the codes take in all. -/
def totalWidth (codes : List (BitVec 6 × Data)) : Nat := (codes.map fun c => c.1.toNat).sum

/-- The stream bits of the codes (R52). -/
def codesBits (codes : List (BitVec 6 × Data)) : List Bool := codes.flatMap fun c => codeBits c.1.toNat c.2

end Sys2Proof.Machine
end

