-- ==== Sys2Proof/Certificates/Slice0/Obligations.lean ====
section
/-! DEFINITION. The statements for the provers, in the order of OBLIGATIONS.json: encoding, host port, alphabet, writer,
reader, width trackers, control, and the rules about the whole machine. Where a host action comes from (`pending`) and where
its result goes (`results`) is how the model writes down the host (log entries 2 and 3). -/

open Sys2Proof Sys2Proof.Machine

/-! ### Encoding (30_encoding.md) -/

/-- R70 to R74, R77: no bit of an encoding is dropped: every well-formed command is what its own word decodes to. -/
def Obligations.DecodeOfEncodeIsTheCommand : Prop :=
  ∀ i : Instr, i.wellFormed = true → decode (encode i) = .ok i

/-- R73, R75: a word that decodes at all decodes to a well-formed command and is the one word of that command. -/
def Obligations.EncodeOfDecodeIsTheWord : Prop :=
  ∀ (w : CmdWord) (i : Instr), decode w = .ok i → i.wellFormed = true ∧ encode i = w

/-- R73: the decoder gives a row's mnemonic to exactly the words that match the row by `(w & mask) = match` and the extra
condition; no word matches two rows; a word that matches none is illegal: issued, it raises IllegalCommand(0) and sets
STAT.ILL, and nothing else changes. -/
def Obligations.LegalWordsAreTheTableRows : Prop :=
  (∀ r ∈ legalRows, ∀ w : CmdWord, (∃ i, decode w = .ok i ∧ i.mnemonic = r.mnemonic) ↔ r.accepts w) ∧
  (∀ r ∈ legalRows, ∀ r' ∈ legalRows, ∀ w : CmdWord, r.accepts w → r'.accepts w → r = r') ∧
  (∀ w : CmdWord, (∀ r ∈ legalRows, ¬ r.accepts w) → ∀ s : State,
    issue w s = .next ({ s with sticky := s.sticky ||| 0b010000#6 }.answered 5#4 0#32))

/-- R76: every word of the list (a) to (f) raises IllegalCommand with data 0 and changes nothing but STAT.ILL; every other
word is a command of its own (not the reserved one) and is executed; NOP's word is the only one that executes as NOP. -/
def Obligations.IllegalListRaisesIllegalCommand : Prop :=
  (∀ (s : State) (w : CmdWord),
    (illegalByList w → issue w s = .next ({ s with sticky := s.sticky ||| 0b010000#6 }.answered 5#4 0#32)) ∧
    (¬ illegalByList w → ∃ i, decode w = .ok i ∧ i.mnemonic ≠ "(reserved)" ∧ issue w s = exec i s)) ∧
  (∀ w : CmdWord, decode w = .ok .nop ↔ w = 0#64)

/-- Words written out from the spec's encodings (95_test_vectors.md) decode to the commands they stand for. -/
def Obligations.SampleWordsDecode : Prop :=
  decode 0x0000000000000000#64 = .ok .nop ∧
  decode 0x20C0000000000001#64 = .ok (.wBits 6#6 1#32) ∧
  decode 0x24000000FFFFFFFF#64 = .ok (.wBits 32#6 0xFFFFFFFF#32) ∧
  decode 0x2420000000000000#64 = .error .widthRange ∧
  decode 0x6180000000000000#64 = .ok (.rBits 12#6) ∧
  decode 0x8860000000000004#64 = .ok (.wtInit .r 3#6 4#32) ∧
  decode 0xA810000000000000#64 = .ok (.wtRead .r .ei) ∧
  decode 0xB000000000000040#64 = .error .operandRange ∧
  decode 0xC000000000000067#64 = .ok (.symDec 0x67#16) ∧
  decode 0xE010000000000000#64 = .ok (.status true)

/-- R58, R62, R75: a step is the first pending host action, performed with that action taken off the pending ones; where it is
the ISSUE of a word that decodes to `i`, the step is the execution of `i`. -/
def Obligations.StepRunsTheDecodedCommand : Prop :=
  ∀ (s : State) (a : HostAction) (rest : List HostAction), s.pending = a :: rest →
    step s = perform a { s with pending := rest } ∧
    ∀ (w : CmdWord) (i : Instr), a = .issue w → decode w = .ok i → step s = exec i { s with pending := rest }

/-- R77, R78: an assembler line that is accepted gives words that decode to exactly the commands it stands for; a W_BITS line is
refused where its width is above 32 (that R77's range of N is 0..32 is the model's choice, log entry 17) or its value does
not fit; and each pseudo-instruction is its exact expansion. -/
def Obligations.AssembledLinesDecodeToTheirCommands : Prop :=
  (∀ (l : AsmLine) (is : List Instr), l.toInstrs = some is →
    ∃ ws, l.assemble = some ws ∧ ws.map decode = is.map .ok) ∧
  (∀ n v : Nat, (AsmLine.wBits n v).assemble = none ↔ ¬ (n ≤ 32 ∧ v < 2 ^ 32)) ∧
  AsmLine.wEos.toInstrs = some [.wCode 2#32] ∧
  (∀ c, (AsmLine.wtStep2 c).toInstrs = some [.wtStep c, .wtStep c]) ∧
  (∀ v : Data, (AsmLine.wRef v.toNat).toInstrs = some [.wCode v, .wtStep .w]) ∧
  AsmLine.rRef.toInstrs = some [.rCode, .wtStep .r]

/-! ### Host port and reset (20_memory.md, 70_reset_and_hazards.md) -/

/-- R59: LOAD_IN of at most `P_IN_CAP` units writes cells 0 to k-1, sets L to k, closes the session and touches nothing else, so
that a read right after it raises NotActive; a longer load has no move. (That the cells at index k and above keep what they
held is the model's inference, log entry 7, DEDUCED: R25 calls them unspecified.) -/
def Obligations.LoadInWritesCellsAndEndsTheSession : Prop :=
  ∀ (s : State) (us : List CodeUnit),
    (us.length ≤ s.cfg.inCap → s.r.buf.length = s.cfg.inCap →
      ∃ t buf, perform (.loadIn us) s = .next t ∧
        t = { s with r := { buf := buf, len := us.length, act := false, idx := 0, cur := 0#6, rem := 0#3 } } ∧
        buf.length = s.cfg.inCap ∧ (∀ j, buf[j]? = if j < us.length then us[j]? else s.r.buf[j]?) ∧
        ∀ i, ((∃ n, i = .rBits n) ∨ i = .rCode) →
          exec i t = .next ({ t with sticky := t.sticky ||| 0b100000#6 }.answered 6#4 0#32)) ∧
    (s.cfg.inCap < us.length → ¬ ∃ t, perform (.loadIn us) s = .next t)

/-- R60: DRAIN_OUT(k) with `k <= |OUT|` returns `OUT[0..k-1]` and removes them, and changes nothing else; a larger drain has
no move. -/
def Obligations.DrainOutReturnsTheFront : Prop :=
  ∀ (s : State) (k : Nat),
    (k ≤ s.w.out.length →
      ∃ got left, s.w.out = got ++ left ∧ got.length = k ∧
        perform (.drainOut k) s = .next { s with w := { s.w with out := left }, results := s.results ++ [.drained got] }) ∧
    (s.w.out.length < k → ¬ ∃ t, perform (.drainOut k) s = .next t)

/-- R61, R31: RESET sets every piece of R20's state to its value in R31. IN keeps its `P_IN_CAP` cells; what they hold is
unspecified. -/
def Obligations.ResetRestoresTheResetTable : Prop :=
  ∀ s : State,
    ∃ t, perform .reset s = .next t ∧ t.w.acc = 0#6 ∧ t.w.pos = 0#3 ∧ t.w.out = [] ∧ t.r.buf.length = s.cfg.inCap ∧ t.r.len = 0 ∧
      t.r.act = false ∧ t.r.idx = 0 ∧ t.r.cur = 0#6 ∧ t.r.rem = 0#3 ∧ t.wtW = ⟨0#6, 0#32⟩ ∧ t.wtR = ⟨0#6, 0#32⟩ ∧
      t.sticky = 0#6 ∧ t.stat = 0#32

/-- R31, R210: the state after power-on, for every choice of the parameters; `State.reset` is power-on with the spec's
test-vector values (log entry 1, the model's choice). -/
def Obligations.PowerOnHasTheResetValues : Prop :=
  (∀ (cfg : Config) (e : Nat), let s := State.powerOn cfg e
    s.cfg = cfg ∧ s.w.acc = 0#6 ∧ s.w.pos = 0#3 ∧ s.w.out = [] ∧ s.r.buf.length = cfg.inCap ∧ s.r.len = 0 ∧ s.r.act = false ∧
      s.r.idx = 0 ∧ s.r.cur = 0#6 ∧ s.r.rem = 0#3 ∧ s.wtW = ⟨0#6, 0#32⟩ ∧ s.wtR = ⟨0#6, 0#32⟩ ∧ s.sticky = 0#6 ∧
      s.stat = 0#32 ∧ s.pending = [] ∧ s.results = []) ∧
  State.reset = State.powerOn ⟨64, 64, .emitNone⟩ 0

/-- R193: between commands, where no host action is pending, the block "holds its state and does nothing". -/
def Obligations.IdleBlockHoldsItsState : Prop :=
  ∀ s : State, s.pending = [] → step s = .next s

/-- R58, R62: a step takes exactly the first pending action and leaves the others in their order, gives the host at most one
result, adds it behind the earlier ones, and never changes the parameters. (The lists of pending actions and of results are
the model's choice, log entries 2 and 3; the parameters in the state are log entry 1.) -/
def Obligations.ActionsAreTakenOneAtATimeInOrder : Prop :=
  ∀ s t : State, step s = .next t →
    t.pending = s.pending.tail ∧ t.cfg = s.cfg ∧ (t.results = s.results ∨ ∃ x, t.results = s.results ++ [x])

/-! ### Alphabet (40_alphabet.md) -/

/-- R90: the closed form of the table. -/
def Obligations.SymbolForFollowsTheTable : Prop :=
  ∀ v : SymVal,
    (v.toNat ≤ 25 → (symbolFor v).toNat = 0x41 + v.toNat) ∧
    (26 ≤ v.toNat → v.toNat ≤ 51 → (symbolFor v).toNat = 0x47 + v.toNat) ∧
    (52 ≤ v.toNat → v.toNat ≤ 61 → (symbolFor v).toNat = v.toNat - 4) ∧
    (v.toNat = 62 → symbolFor v = 0x2B#16) ∧ (v.toNat = 63 → symbolFor v = 0x2D#16)

/-- R91: `valueFor(u)` is the v with `symbolFor(v) = u` where there is one and `invalid` otherwise. -/
def Obligations.ValueForInvertsSymbolFor : Prop :=
  ∀ u : CodeUnit, (∀ v : SymVal, valueFor u = some v ↔ symbolFor v = u) ∧ (valueFor u = none ↔ ∀ v : SymVal, symbolFor v ≠ u)

/-- R96, R51: the 64 units are distinct, none is `=` or `/`, and all lie below 0x80. -/
def Obligations.AlphabetUnitsAreDistinctAndSafe : Prop :=
  (∀ v v' : SymVal, symbolFor v = symbolFor v' → v = v') ∧
  (∀ v : SymVal, symbolFor v ≠ 0x3D#16 ∧ symbolFor v ≠ 0x2F#16 ∧ (symbolFor v).toNat < 0x80)

/-- R92: SYM_ENC answers OK with the symbol, zero-extended, and changes nothing else; its operand is V[5:0], and a word with
a bit set elsewhere below OP is illegal. -/
def Obligations.SymEncAnswersTheSymbol : Prop :=
  (∀ (v : SymVal) (s : State), exec (.symEnc v) s = .next (s.answered 0#4 ((symbolFor v).setWidth 32))) ∧
  IssuedWords 0xB (fun f => f.c = 0#1 ∧ f.n = 0#6 ∧ f.s = 0#1 ∧ f.z = 0#20 ∧ f.v.toNat < 2 ^ 6) (fun f => .symEnc (f.v.setWidth 6))

/-- R93: SYM_DEC answers the value of an alphabet unit and changes nothing else; any other unit raises InvalidInput with the
unit as data and sets STAT.INV. The operand is V[15:0], and a word with a bit set elsewhere below OP is illegal. -/
def Obligations.SymDecAnswersTheValueOrInvalidInput : Prop :=
  (∀ (u : CodeUnit) (s : State),
    (∀ v : SymVal, symbolFor v = u → exec (.symDec u) s = .next (s.answered 0#4 (v.setWidth 32))) ∧
    ((∀ v : SymVal, symbolFor v ≠ u) →
      exec (.symDec u) s = .next ({ s with sticky := s.sticky ||| 0b000001#6 }.answered 1#4 (u.setWidth 32)))) ∧
  IssuedWords 0xC (fun f => f.c = 0#1 ∧ f.n = 0#6 ∧ f.s = 0#1 ∧ f.z = 0#20 ∧ f.v.toNat < 2 ^ 16)
    (fun f => .symDec (f.v.setWidth 16))

/-- R95: REV16 answers OK with bit i of the data equal to bit 15 - i of the operand and zeros above, and changes nothing
else; its operand is V[15:0], and a word with a bit set elsewhere below OP is illegal. -/
def Obligations.Rev16AnswersTheReversedBits : Prop :=
  (∀ (x : BitVec 16) (s : State), ∃ d : Data, exec (.rev16 x) s = .next (s.answered 0#4 d) ∧
    (∀ i, i < 16 → d.getLsbD i = x.getLsbD (15 - i)) ∧ (∀ i, 16 ≤ i → d.getLsbD i = false)) ∧
  IssuedWords 0xD (fun f => f.c = 0#1 ∧ f.n = 0#6 ∧ f.s = 0#1 ∧ f.z = 0#20 ∧ f.v.toNat < 2 ^ 16)
    (fun f => .rev16 (f.v.setWidth 16))

/-- R94: bit i of the reversal is bit 15 - i of x, the four swaps compose to it, and the function is its own inverse. -/
def Obligations.SwapNetworkIsTheReversal : Prop :=
  ∀ x : BitVec 16,
    (∀ i, i < 16 → (reverseBits16 x).getLsbD i = x.getLsbD (15 - i)) ∧
    (let x1 := ((x &&& 0x5555#16) <<< 1) ||| ((x >>> 1) &&& 0x5555#16)
     let x2 := ((x1 &&& 0x3333#16) <<< 2) ||| ((x1 >>> 2) &&& 0x3333#16)
     let x3 := ((x2 &&& 0x0F0F#16) <<< 4) ||| ((x2 >>> 4) &&& 0x0F0F#16)
     ((x3 &&& 0x00FF#16) <<< 8) ||| ((x3 >>> 8) &&& 0x00FF#16)) = reverseBits16 x ∧
    reverseBits16 (reverseBits16 x) = x

/-! ### Writer (41_writer.md) -/

/-- R111: W_INIT empties the accumulator and OUT, answers OK 0 and changes nothing else; it uses no field. -/
def Obligations.WInitEmptiesTheWriter : Prop :=
  (∀ s : State, exec .wInit s = .next ({ s with w := { acc := 0#6, pos := 0#3, out := [] } }.answered 0#4 0#32)) ∧
  IssuedWords 0x1 (fun f => f.c = 0#1 ∧ f.n = 0#6 ∧ f.s = 0#1 ∧ f.z = 0#20 ∧ f.v = 0#32) (fun _ => .wInit)

/-- R112, R113: a write of width n (N for W_BITS, WT[W].nb for W_CODE) emits `k = floor((W.pos + n) / 6)` symbols. Where they
fit it answers OK with k, appends k alphabet units to OUT, leaves `(W.pos + n) mod 6` bits in the accumulator, and the
writer's bit stream is the old one followed by bits 0 to n-1 of v; where they do not it raises OutputOverflow(k) and sets
STAT.OVF. Nothing else changes. W_BITS uses N (at most 32) and V, W_CODE uses V; every other field must be zero. -/
def Obligations.WritesAppendTheCodeOrOverflow : Prop :=
  (∀ (s : State) (i : Instr) (n : BitVec 6) (v : Data), (i = .wBits n v ∨ (i = .wCode v ∧ n = s.wtW.nb)) →
    let k := (s.w.pos.toNat + n.toNat) / 6
    (s.w.Ok → s.w.out.length + k ≤ s.cfg.outCap →
      ∃ w' us, exec i s = .next ({ s with w := w' }.answered 0#4 (BitVec.ofNat 32 k)) ∧
        w'.out = s.w.out ++ us ∧ us.length = k ∧ w'.Ok ∧ w'.pos.toNat = (s.w.pos.toNat + n.toNat) % 6 ∧
        w'.stream = s.w.stream ++ (List.range n.toNat).map v.getLsbD) ∧
    (s.cfg.outCap < s.w.out.length + k →
      exec i s = .next ({ s with sticky := s.sticky ||| 0b000100#6 }.answered 3#4 (BitVec.ofNat 32 k)))) ∧
  IssuedWords 0x2 (fun f => f.c = 0#1 ∧ f.n.toNat ≤ 32 ∧ f.s = 0#1 ∧ f.z = 0#20) (fun f => .wBits f.n f.v) ∧
  IssuedWords 0x3 (fun f => f.c = 0#1 ∧ f.n = 0#6 ∧ f.s = 0#1 ∧ f.z = 0#20) (fun f => .wCode f.v)

/-- R114: W_FLUSH. With bits held and room, one symbol is appended whose bits are the held ones and then zeros; with none
held, P_FLUSH_EMPTY decides between nothing and one symbol of value 0 (`A`); a symbol that does not fit raises
OutputOverflow(1). Nothing else changes. It uses no field. -/
def Obligations.FlushPadsWithZeroBits : Prop :=
  (∀ s : State, s.w.Ok →
    (s.w.pos ≠ 0#3 → s.w.out.length + 1 ≤ s.cfg.outCap →
      ∃ u, exec .wFlush s = .next ({ s with w := { acc := 0#6, pos := 0#3, out := s.w.out ++ [u] } }.answered 0#4 1#32) ∧
        isAlphabet u = true ∧ unitBits [u] = s.w.heldBits ++ List.replicate (6 - s.w.pos.toNat) false) ∧
    (s.w.pos = 0#3 → s.cfg.flushEmpty = .emitNone → exec .wFlush s = .next (s.answered 0#4 0#32)) ∧
    (s.w.pos = 0#3 → s.cfg.flushEmpty = .zeroSymbol → s.w.out.length + 1 ≤ s.cfg.outCap →
      exec .wFlush s = .next ({ s with w := { s.w with out := s.w.out ++ [0x41#16] } }.answered 0#4 1#32)) ∧
    ((s.w.pos ≠ 0#3 ∨ s.cfg.flushEmpty = .zeroSymbol) → s.cfg.outCap < s.w.out.length + 1 →
      exec .wFlush s = .next ({ s with sticky := s.sticky ||| 0b000100#6 }.answered 3#4 1#32))) ∧
  IssuedWords 0x4 (fun f => f.c = 0#1 ∧ f.n = 0#6 ∧ f.s = 0#1 ∧ f.z = 0#20 ∧ f.v = 0#32) (fun _ => .wFlush)

/-- R115 (a), (b), (c): after any sequence of writes totalling T bits from an empty writer, with room for what they append,
the writer has appended `floor(T / 6)` alphabet units, holds `T mod 6` bits, and its stream is the written bits in order;
a W_FLUSH then (T mod 6 ≠ 0, and room for the symbol) gives `ceil(T / 6)` units whose bits are the written ones and
`6 - (T mod 6)` zeros. Only the writer changes. -/
def Obligations.WriteSequencesPackTheirBits : Prop :=
  ∀ (s : State) (is : List Instr), s.w = { acc := 0#6, pos := 0#3, out := [] } → (∀ i ∈ is, isWrite i = true) →
    let bits := is.flatMap (writtenBits s.wtW.nb)
    let T := bits.length
    T / 6 ≤ s.cfg.outCap →
    ∃ t, execAll is s = .next t ∧ t = { s with w := t.w, results := t.results } ∧ t.w.Ok ∧ t.w.out.length = T / 6 ∧
      t.w.pos.toNat = T % 6 ∧ t.w.stream = bits ∧
      (T % 6 ≠ 0 → (T + 5) / 6 ≤ s.cfg.outCap →
        ∃ u, exec .wFlush t = .next u ∧ u.w.out.length = (T + 5) / 6 ∧ (∀ x ∈ u.w.out, isAlphabet x = true) ∧
          unitBits u.w.out = bits ++ List.replicate (6 - T % 6) false)

/-- R115 (d): W_BITS, W_CODE and W_FLUSH never stop, and the only error a legal one of them raises is OutputOverflow, in
every state. -/
def Obligations.WriterRaisesOnlyOverflow : Prop :=
  ∀ (s : State) (i : Instr), (isWrite i = true ∨ i = .wFlush) →
    ∃ t c d, exec i s = .next t ∧ t.results = s.results ++ [.response ⟨c, d⟩] ∧ (c = 0#4 ∨ c = 3#4)

/-! ### Reader (42_reader.md) -/

/-- R132: R_START clears the reader registers, then answers InvalidInput(0xFFFFFFFF) where L = 0, InvalidInput(j) where j is
the lowest loaded cell that is no alphabet unit, and otherwise opens a session and answers OK with L. Nothing else
changes. It uses no field. (That L and j are cut to their low 32 bits where P_IN_CAP is 2^32 or more is the model's
inference, log entry 6, DEDUCED.) -/
def Obligations.RStartValidatesTheWholeInput : Prop :=
  (∀ s : State,
    let closed := { s.r with act := false, idx := 0, cur := 0#6, rem := 0#3 }
    (s.r.len = 0 →
      exec .rStart s = .next ({ s with r := closed, sticky := s.sticky ||| 0b000001#6 }.answered 1#4 0xFFFFFFFF#32)) ∧
    (∀ j u, j < s.r.len → s.r.buf[j]? = some u → isAlphabet u = false →
      (∀ k, k < j → ∃ u', s.r.buf[k]? = some u' ∧ isAlphabet u' = true) →
      exec .rStart s = .next ({ s with r := closed, sticky := s.sticky ||| 0b000001#6 }.answered 1#4 (BitVec.ofNat 32 j))) ∧
    (0 < s.r.len → (∀ k, k < s.r.len → ∃ u, s.r.buf[k]? = some u ∧ isAlphabet u = true) →
      exec .rStart s = .next ({ s with r := { closed with act := true } }.answered 0#4 (BitVec.ofNat 32 s.r.len)))) ∧
  IssuedWords 0x5 (fun f => f.c = 0#1 ∧ f.n = 0#6 ∧ f.s = 0#1 ∧ f.z = 0#20 ∧ f.v = 0#32) (fun _ => .rStart)

/-- R133, R134: a read of width n (N for R_BITS, WT[R].nb for R_CODE). With no session open it raises NotActive(0), whatever
the width. In an open session with at least n bits left it answers OK with the next n bits of the stream as bits 0 to n-1 of
the data and zeros above; the reader keeps exactly the rest of the stream, and unpacks a cell only when its first bit is
needed. With fewer bits left it raises Truncated with the number that are, and consumes nothing. Nothing else changes.
R_BITS uses N (at most 32), R_CODE no field. -/
def Obligations.ReadsDeliverTheNextBitsOrRaise : Prop :=
  (∀ (s : State) (i : Instr) (n : BitVec 6), (i = .rBits n ∨ (i = .rCode ∧ n = s.wtR.nb)) →
    let avail := s.r.rem.toNat + 6 * (s.r.len - s.r.idx)
    (s.r.act = false → exec i s = .next ({ s with sticky := s.sticky ||| 0b100000#6 }.answered 6#4 0#32)) ∧
    (s.r.act = true → avail < n.toNat →
      exec i s = .next ({ s with sticky := s.sticky ||| 0b000010#6 }.answered 2#4 (BitVec.ofNat 32 avail))) ∧
    (s.r.act = true → s.r.Ok s.cfg.inCap → n.toNat ≤ 32 → n.toNat ≤ avail →
      ∃ r' d, exec i s = .next ({ s with r := r' }.answered 0#4 d) ∧
        r'.buf = s.r.buf ∧ r'.len = s.r.len ∧ r'.act = true ∧ r'.Ok s.cfg.inCap ∧
        s.r.stream = (List.range n.toNat).map d.getLsbD ++ r'.stream ∧ (∀ j, n.toNat ≤ j → d.getLsbD j = false) ∧
        (n = 0#6 → r' = s.r) ∧ (n ≠ 0#6 → r'.rem.toNat ≤ 5))) ∧
  IssuedWords 0x6 (fun f => f.c = 0#1 ∧ f.n.toNat ≤ 32 ∧ f.s = 0#1 ∧ f.z = 0#20 ∧ f.v = 0#32) (fun f => .rBits f.n) ∧
  IssuedWords 0x7 (fun f => f.c = 0#1 ∧ f.n = 0#6 ∧ f.s = 0#1 ∧ f.z = 0#20 ∧ f.v = 0#32) (fun _ => .rCode)

/-- R130: in an open session Avail(), `R.rem + 6 * (L - R.idx)`, is the number of bits of the stream still to deliver; it is
6 * L right after a successful R_START, and a successful n-bit read lowers it by exactly n. -/
def Obligations.AvailCountsTheUnreadBits : Prop :=
  let avail := fun r : Reader => r.rem.toNat + 6 * (r.len - r.idx)
  (∀ (cap : Nat) (r : Reader), r.Ok cap → r.act = true → r.stream.length = avail r) ∧
  (∀ s t : State, exec .rStart s = .next t → t.r.act = true → avail t.r = 6 * s.r.len) ∧
  (∀ (s t : State) (i : Instr) (n : BitVec 6) (d : Data), (i = .rBits n ∨ (i = .rCode ∧ n = s.wtR.nb)) → s.r.Ok s.cfg.inCap →
    exec i s = .next t → t.results = s.results ++ [.response ⟨0#4, d⟩] → avail t.r + n.toNat = avail s.r)

/-- R135, R26: only R_START opens a session; an open session stays open until the next R_START, LOAD_IN or reset; neither the
end of the input nor a Truncated response closes it. -/
def Obligations.SessionsOpenAtStartAndEndAtStartLoadOrReset : Prop :=
  ∀ s t : State, step s = .next t →
    (s.r.act = false → t.r.act = true → ∃ w rest, s.pending = .issue w :: rest ∧ decode w = .ok .rStart) ∧
    (s.r.act = true → t.r.act = false →
      ∃ a rest, s.pending = a :: rest ∧ (a = .reset ∨ (∃ us, a = .loadIn us) ∨ ∃ w, a = .issue w ∧ decode w = .ok .rStart))

/-! ### Width trackers (43_width.md) -/

/-- R150: WT_INIT loads the tracker that c selects, answers OK 0 and changes nothing else; it uses C, N (at most 32) and V. -/
def Obligations.WtInitLoadsTheSelectedTracker : Prop :=
  (∀ (s : State) (n : BitVec 6) (e : Data),
    exec (.wtInit .w n e) s = .next ({ s with wtW := ⟨n, e⟩ }.answered 0#4 0#32) ∧
    exec (.wtInit .r n e) s = .next ({ s with wtR := ⟨n, e⟩ }.answered 0#4 0#32)) ∧
  IssuedWords 0x8 (fun f => f.n.toNat ≤ 32 ∧ f.s = 0#1 ∧ f.z = 0#20) (fun f => .wtInit (if f.c = 0#1 then .w else .r) f.n f.v)

/-- R151, R152: one transition step of the tracker T that c selects. With ei ≠ 0 it goes down by one and the answer is 0;
with ei = 0 and nb < 32 the width grows by one, ei becomes `2^nb - 1` with the new nb, and the answer is 1; at (32, 0) it
raises WidthOverflow(32) and sets STAT.WOVF. Nothing else changes. It uses C. -/
def Obligations.WtStepAppliesTheTransitionRule : Prop :=
  (∀ (s : State) (c : Chan),
    let T := match c with | .w => s.wtW | .r => s.wtR
    let put := fun T' : Tracker => match c with | .w => { s with wtW := T' } | .r => { s with wtR := T' }
    (T.ei ≠ 0#32 → ∃ e, exec (.wtStep c) s = .next ((put ⟨T.nb, e⟩).answered 0#4 0#32) ∧ e.toNat + 1 = T.ei.toNat) ∧
    (T.ei = 0#32 → T.nb.toNat < 32 →
      ∃ n e, exec (.wtStep c) s = .next ((put ⟨n, e⟩).answered 0#4 1#32) ∧ n.toNat = T.nb.toNat + 1 ∧
        e.toNat = 2 ^ (T.nb.toNat + 1) - 1) ∧
    (T = ⟨32#6, 0#32⟩ →
      exec (.wtStep c) s = .next ({ s with sticky := s.sticky ||| 0b001000#6 }.answered 4#4 32#32))) ∧
  IssuedWords 0x9 (fun f => f.n = 0#6 ∧ f.s = 0#1 ∧ f.z = 0#20 ∧ f.v = 0#32) (fun f => .wtStep (if f.c = 0#1 then .w else .r))

/-- R153: WT_READ answers OK with the field that s selects of the tracker that c selects and changes nothing; it uses
C and S. -/
def Obligations.WtReadAnswersTheSelectedField : Prop :=
  (∀ s : State,
    exec (.wtRead .w .nb) s = .next (s.answered 0#4 (s.wtW.nb.setWidth 32)) ∧
    exec (.wtRead .w .ei) s = .next (s.answered 0#4 s.wtW.ei) ∧
    exec (.wtRead .r .nb) s = .next (s.answered 0#4 (s.wtR.nb.setWidth 32)) ∧
    exec (.wtRead .r .ei) s = .next (s.answered 0#4 s.wtR.ei)) ∧
  IssuedWords 0xA (fun f => f.n = 0#6 ∧ f.z = 0#20 ∧ f.v = 0#32)
    (fun f => .wtRead (if f.c = 0#1 then .w else .r) (if f.s = 0#1 then .nb else .ei))

/-- R155: the width schedule. From `(nb0, e0)` with `nb0 <= 31`, the width is nb0 for the first e0 steps, and for every
k >= 1 with `nb0 + k <= 32` it is `nb0 + k` from step `e0 + 1 + (2^(nb0+1) + ... + 2^(nb0+k-1))` until the step at which
the schedule grows it again. The other tracker, the channels and STAT's sticky bits are as before. -/
def Obligations.WidthScheduleLaw : Prop :=
  ∀ (s : State) (c : Chan) (j : Nat),
    let T := match c with | .w => s.wtW | .r => s.wtR
    let nb0 := T.nb.toNat
    let growsAt := fun k : Nat => T.ei.toNat + 1 + ((List.range (k - 1)).map fun m => 2 ^ (nb0 + 1 + m)).sum
    nb0 ≤ 31 →
    (∀ k, (k = 0 ∧ j ≤ T.ei.toNat ∨ 1 ≤ k ∧ nb0 + k ≤ 32 ∧ growsAt k ≤ j ∧ j < growsAt (k + 1)) →
      ∃ t T', execAll (List.replicate j (.wtStep c)) s = .next t ∧ T'.nb.toNat = nb0 + k ∧
        t = { (match c with | .w => { s with wtW := T' } | .r => { s with wtR := T' }) with results := t.results })

/-! ### Control (44_control.md) and the status register (10_state.md R29) -/

/-- R170: NOP answers OK 0 and changes nothing; its word has every bit zero. -/
def Obligations.NopChangesNothing : Prop :=
  (∀ s : State, exec .nop s = .next (s.answered 0#4 0#32)) ∧
  IssuedWords 0x0 (fun f => f.c = 0#1 ∧ f.n = 0#6 ∧ f.s = 0#1 ∧ f.z = 0#20 ∧ f.v = 0#32) (fun _ => .nop)

/-- R171: STATUS answers OK with STAT as it was before any clearing, laid out as R29 says, and STATUS.CLR (S = 1) clears the
six sticky bits; nothing else changes. It uses S; a malformed STATUS word sets STAT.ILL and clears nothing. -/
def Obligations.StatusReadsThenClears : Prop :=
  (∀ (s : State) (clr : Bool), ∃ d : Data,
    exec (.status clr) s = .next ({ s with sticky := if clr = true then 0#6 else s.sticky }.answered 0#4 d) ∧
    (∀ i, i < 6 → d.getLsbD i = s.sticky.getLsbD i) ∧ d.getLsbD 6 = false ∧ d.getLsbD 7 = false ∧
    d.getLsbD 8 = s.r.act ∧ (∀ i, i < 3 → d.getLsbD (9 + i) = s.w.pos.getLsbD i) ∧
    (∀ i, i < 3 → d.getLsbD (12 + i) = s.r.rem.getLsbD i) ∧ (∀ i, 15 ≤ i → d.getLsbD i = false)) ∧
  IssuedWords 0xE (fun f => f.c = 0#1 ∧ f.n = 0#6 ∧ f.z = 0#20 ∧ f.v = 0#32) (fun f => .status (decide (f.s = 1#1)))

/-- R172: every word with OP = 0xF, whatever its other bits, is the reserved row, and executing it raises IllegalCommand(0),
sets STAT.ILL and changes nothing else. -/
def Obligations.ReservedOpcodeRaisesIllegalCommand : Prop :=
  (∀ (x : BitVec 60) (s : State),
    exec (.reserved x) s = .next ({ s with sticky := s.sticky ||| 0b010000#6 }.answered 5#4 0#32)) ∧
  (∀ w : CmdWord, w.extractLsb' 60 4 = 0xF#4 ↔ ∃ x, decode w = .ok (.reserved x))

/-! ### The whole machine -/

/-- R20 to R27: every step keeps the invariants the spec states for the block's registers. -/
def Obligations.EveryStepKeepsTheInvariant : Prop :=
  ∀ s t : State, s.Inv → step s = .next t → t.Inv

/-- R31: the invariants hold after power-on, for every legal choice of the parameters, and at `State.reset` (power-on with the
parameter values of log entry 1, the model's choice). -/
def Obligations.PowerOnMeetsTheInvariant : Prop :=
  State.reset.Inv ∧ ∀ (cfg : Config) (e : Nat), cfg.Legal → (State.powerOn cfg e).Inv

/-- 93_implementation_defined.md section 1: in a state that meets the invariant every command and every host action that has
a move goes on to a next state: no fault, no refusal. -/
def Obligations.EveryActionWithAMoveCompletes : Prop :=
  ∀ s : State, s.Inv → (∀ a rest, s.pending = a :: rest → s.CanPerform a) → ∃ t, step s = .next t

/-- R180, R181: under the invariant every ISSUE, of a legal word or an illegal one, ends with exactly one response, and its
code is one of 0 to 6; codes 7 to 15 are never returned. -/
def Obligations.EveryCommandGivesOneResponse : Prop :=
  ∀ (s : State) (w : CmdWord), s.Inv →
    ∃ t c d, issue w s = .next t ∧ t.results = s.results ++ [.response ⟨c, d⟩] ∧ c.toNat ≤ 6

/-- R183: errors are precise. An ISSUE that raises sets the sticky bit of its error (bit code - 1) and makes no other
change to the block's state; the single exception is R_START, which clears the reader registers before it validates. -/
def Obligations.ErrorsArePrecise : Prop :=
  ∀ (s t : State) (w : CmdWord) (c : BitVec 4) (d : Data), issue w s = .next t →
    t.results = s.results ++ [.response ⟨c, d⟩] → c ≠ 0#4 →
    1 ≤ c.toNat ∧ c.toNat ≤ 6 ∧
    t = { s with r := if decode w = .ok .rStart then { s.r with act := false, idx := 0, cur := 0#6, rem := 0#3 } else s.r,
                 sticky := s.sticky ||| (1#6 <<< (c.toNat - 1)), results := t.results }

/-- R30: a sticky bit, once set, is cleared only by STATUS.CLR and reset; and a command that succeeds sets none. -/
def Obligations.StickyBitsAreClearedOnlyByStatusClrOrReset : Prop :=
  (∀ (s t : State) (k : Nat), step s = .next t → s.sticky.getLsbD k = true → t.sticky.getLsbD k = false →
    ∃ a rest, s.pending = a :: rest ∧ (a = .reset ∨ ∃ w, a = .issue w ∧ decode w = .ok (.status true))) ∧
  (∀ (s t : State) (i : Instr) (d : Data), exec i s = .next t → t.results = s.results ++ [.response ⟨0#4, d⟩] →
    i ≠ .status true → t.sticky = s.sticky)

/-- R24, R60: OUT is a queue. A step appends to its end only by issuing W_BITS, W_CODE or W_FLUSH, empties it only by W_INIT
or reset, removes from its front only by DRAIN_OUT, and leaves it alone otherwise. -/
def Obligations.OutputQueueChangesOnlyAsAQueue : Prop :=
  ∀ s t : State, step s = .next t →
    t.w.out = s.w.out ∨
    ∃ a rest, s.pending = a :: rest ∧
      ((∃ w i us, a = .issue w ∧ decode w = .ok i ∧ (isWrite i = true ∨ i = .wFlush) ∧ t.w.out = s.w.out ++ us) ∨
       ((a = .reset ∨ ∃ w, a = .issue w ∧ decode w = .ok .wInit) ∧ t.w.out = []) ∨
       (∃ k, a = .drainOut k ∧ t.w.out = s.w.out.drop k))

/-- R57: under the invariant a write or a flush appends 0 to 6 whole units, and a read unpacks 0 to 6 whole cells. -/
def Obligations.CommandsMoveAtMostSixUnits : Prop :=
  ∀ (s t : State) (i : Instr), s.Inv → i.wellFormed = true → exec i s = .next t →
    ((isWrite i = true ∨ i = .wFlush) → ∃ us, t.w.out = s.w.out ++ us ∧ us.length ≤ 6) ∧
    (((∃ n, i = .rBits n) ∨ i = .rCode) → s.r.idx ≤ t.r.idx ∧ t.r.idx ≤ s.r.idx + 6)

/-- R25: only the host writes IN and L, and only through LOAD_IN (and reset); no command changes either. -/
def Obligations.InputBufferChangesOnlyByLoadOrReset : Prop :=
  ∀ s t : State, step s = .next t → (∀ us rest, s.pending ≠ .loadIn us :: rest) → (∀ rest, s.pending ≠ .reset :: rest) →
    t.r.buf = s.r.buf ∧ t.r.len = s.r.len

/-- R27: a tracker changes only by WT_INIT or WT_STEP of its own channel, and by reset. -/
def Obligations.TrackersChangeOnlyByTheirOwnCommands : Prop :=
  ∀ (s t : State) (c : Chan), step s = .next t → t.tracker c ≠ s.tracker c →
    ∃ a rest, s.pending = a :: rest ∧
      (a = .reset ∨ ∃ w, a = .issue w ∧ ((∃ n e, decode w = .ok (.wtInit c n e)) ∨ decode w = .ok (.wtStep c)))

/-- R25, R31: the block never reads a cell of IN at index L or above. Two states that differ only in such cells step alike
and still differ only in such cells; what the host gets is the same. -/
def Obligations.UnloadedCellsAreNeverRead : Prop :=
  ∀ s s' t : State, s.Inv → SameLiveCells s s' → step s = .next t → ∃ t', step s' = .next t' ∧ SameLiveCells t t'

/-- R5, R27, R191: the two channels do not interact. A command of one side, run in two states that agree on the parameters
and on that side's channel and tracker, gives the same response and leaves that side alike, and never changes the other
side's. -/
def Obligations.ChannelsDoNotInteract : Prop :=
  ∀ (s s' t : State) (i : Instr), s.cfg = s'.cfg → exec i s = .next t →
    (writerSide i = true → s.w = s'.w → s.wtW = s'.wtW →
      ∃ t' r, exec i s' = .next t' ∧ t'.w = t.w ∧ t'.wtW = t.wtW ∧ t.results = s.results ++ [.response r] ∧
        t'.results = s'.results ++ [.response r] ∧ t'.r = s'.r ∧ t'.wtR = s'.wtR) ∧
    (readerSide i = true → s.r = s'.r → s.wtR = s'.wtR →
      ∃ t' r, exec i s' = .next t' ∧ t'.r = t.r ∧ t'.wtR = t.wtR ∧ t.results = s.results ++ [.response r] ∧
        t'.results = s'.results ++ [.response r] ∧ t'.w = s'.w ∧ t'.wtW = s'.wtW)

/-- R65: SYM_ENC, SYM_DEC, REV16, WT_READ, NOP and STATUS without CLR, where they succeed, change no state, and issued again
they give the same answer. (A SYM_DEC that raises sets STAT.INV, R93: that is not this case.) -/
def Obligations.PureCommandsRepeatAndChangeNothing : Prop :=
  ∀ (s t : State) (i : Instr) (d : Data),
    (i = .nop ∨ (∃ v, i = .symEnc v) ∨ (∃ u, i = .symDec u) ∨ (∃ x, i = .rev16 x) ∨ (∃ c f, i = .wtRead c f) ∨ i = .status false) →
    exec i s = .next t → t.results = s.results ++ [.response ⟨0#4, d⟩] →
    t = { s with results := t.results } ∧ exec i t = .next { t with results := t.results ++ [.response ⟨0#4, d⟩] }

/-- R219: after OUTPUT_OVERFLOW the host may drain OUT and issue the same command again, which then behaves as if first
issued: it leaves the writer and answers as it would have in the state drained without the refused attempt. -/
def Obligations.OverflowedWriteRetriesAfterADrain : Prop :=
  ∀ (s t : State) (i : Instr) (d : Data) (k : Nat), (isWrite i = true ∨ i = .wFlush) → exec i s = .next t →
    t.results = s.results ++ [.response ⟨3#4, d⟩] → k ≤ s.w.out.length →
    let drained := fun x : State => { x with w := { x.w with out := x.w.out.drop k } }
    ∃ u v r, exec i (drained t) = .next u ∧ exec i (drained s) = .next v ∧ u.w = v.w ∧
      u.results = t.results ++ [.response r] ∧ v.results = s.results ++ [.response r]

/-- R54, S1: the round trip. Writing codes of widths n_1 .. n_k from an empty writer, flushing, loading the output into IN
and reading the same widths returns OK with `c_i mod 2^n_i` for each i, provided at least one bit is written and the output
fits OUT and IN. -/
def Obligations.WrittenCodesReadBack : Prop :=
  ∀ (s : State) (codes : List (BitVec 6 × Data)), s.Inv → (∀ c ∈ codes, c.1.toNat ≤ 32) →
    let T := (codes.map fun c => c.1.toNat).sum
    let len := T / 6 + if T % 6 ≠ 0 ∨ s.cfg.flushEmpty = .zeroSymbol then 1 else 0
    1 ≤ T → len ≤ s.cfg.outCap → len ≤ s.cfg.inCap →
    ∃ t, execAll (.wInit :: writeCodes codes ++ [.wFlush]) s = .next t ∧ t.w.out.length = len ∧
      ∃ t1, step { t with pending := [.loadIn t.w.out] } = .next t1 ∧
      ∃ u d, execAll (.rStart :: readCodes codes) t1 = .next u ∧
        u.results = t.results ++ [.response ⟨0#4, d⟩] ++
          codes.map fun c => .response ⟨0#4, BitVec.ofNat 32 (c.2.toNat % 2 ^ c.1.toNat)⟩
end

