-- ==== Sys2Proof/Laws/State.lean ====
section
/-! SUPPORT. One lemma per field per update of the state, each true by rfl. -/

namespace Sys2Proof.Machine

@[simp] theorem State.deliver_cfg (s : State) (x : HostResult) : (s.deliver x).cfg = s.cfg := rfl
@[simp] theorem State.deliver_w (s : State) (x : HostResult) : (s.deliver x).w = s.w := rfl
@[simp] theorem State.deliver_r (s : State) (x : HostResult) : (s.deliver x).r = s.r := rfl
@[simp] theorem State.deliver_wtW (s : State) (x : HostResult) : (s.deliver x).wtW = s.wtW := rfl
@[simp] theorem State.deliver_wtR (s : State) (x : HostResult) : (s.deliver x).wtR = s.wtR := rfl
@[simp] theorem State.deliver_sticky (s : State) (x : HostResult) : (s.deliver x).sticky = s.sticky := rfl
@[simp] theorem State.deliver_freeCtr (s : State) (x : HostResult) : (s.deliver x).freeCtr = s.freeCtr := rfl
@[simp] theorem State.deliver_pending (s : State) (x : HostResult) : (s.deliver x).pending = s.pending := rfl
@[simp] theorem State.deliver_results (s : State) (x : HostResult) : (s.deliver x).results = s.results ++ [x] := rfl

@[simp] theorem State.respond_cfg (s : State) (d : Data) : (s.respond d).cfg = s.cfg := rfl
@[simp] theorem State.respond_w (s : State) (d : Data) : (s.respond d).w = s.w := rfl
@[simp] theorem State.respond_r (s : State) (d : Data) : (s.respond d).r = s.r := rfl
@[simp] theorem State.respond_wtW (s : State) (d : Data) : (s.respond d).wtW = s.wtW := rfl
@[simp] theorem State.respond_wtR (s : State) (d : Data) : (s.respond d).wtR = s.wtR := rfl
@[simp] theorem State.respond_sticky (s : State) (d : Data) : (s.respond d).sticky = s.sticky := rfl
@[simp] theorem State.respond_freeCtr (s : State) (d : Data) : (s.respond d).freeCtr = s.freeCtr := rfl
@[simp] theorem State.respond_pending (s : State) (d : Data) : (s.respond d).pending = s.pending := rfl
@[simp] theorem State.respond_results (s : State) (d : Data) : (s.respond d).results = s.results ++ [.response { code := 0#4, data := d }] := rfl

@[simp] theorem State.raise_cfg (s : State) (e : Err) (d : Data) : (s.raise e d).cfg = s.cfg := rfl
@[simp] theorem State.raise_w (s : State) (e : Err) (d : Data) : (s.raise e d).w = s.w := rfl
@[simp] theorem State.raise_r (s : State) (e : Err) (d : Data) : (s.raise e d).r = s.r := rfl
@[simp] theorem State.raise_wtW (s : State) (e : Err) (d : Data) : (s.raise e d).wtW = s.wtW := rfl
@[simp] theorem State.raise_wtR (s : State) (e : Err) (d : Data) : (s.raise e d).wtR = s.wtR := rfl
@[simp] theorem State.raise_sticky (s : State) (e : Err) (d : Data) : (s.raise e d).sticky = s.sticky ||| e.stickyMask := rfl
@[simp] theorem State.raise_freeCtr (s : State) (e : Err) (d : Data) : (s.raise e d).freeCtr = s.freeCtr := rfl
@[simp] theorem State.raise_pending (s : State) (e : Err) (d : Data) : (s.raise e d).pending = s.pending := rfl
@[simp] theorem State.raise_results (s : State) (e : Err) (d : Data) : (s.raise e d).results = s.results ++ [.response { code := e.code, data := d }] := rfl

@[simp] theorem State.answered_cfg (s : State) (c : BitVec 4) (d : Data) : (s.answered c d).cfg = s.cfg := rfl
@[simp] theorem State.answered_w (s : State) (c : BitVec 4) (d : Data) : (s.answered c d).w = s.w := rfl
@[simp] theorem State.answered_r (s : State) (c : BitVec 4) (d : Data) : (s.answered c d).r = s.r := rfl
@[simp] theorem State.answered_wtW (s : State) (c : BitVec 4) (d : Data) : (s.answered c d).wtW = s.wtW := rfl
@[simp] theorem State.answered_wtR (s : State) (c : BitVec 4) (d : Data) : (s.answered c d).wtR = s.wtR := rfl
@[simp] theorem State.answered_sticky (s : State) (c : BitVec 4) (d : Data) : (s.answered c d).sticky = s.sticky := rfl
@[simp] theorem State.answered_freeCtr (s : State) (c : BitVec 4) (d : Data) : (s.answered c d).freeCtr = s.freeCtr := rfl
@[simp] theorem State.answered_pending (s : State) (c : BitVec 4) (d : Data) : (s.answered c d).pending = s.pending := rfl
@[simp] theorem State.answered_results (s : State) (c : BitVec 4) (d : Data) : (s.answered c d).results = s.results ++ [.response { code := c, data := d }] := rfl

@[simp] theorem State.present_cfg (s : State) (w : CmdWord) : (s.present w).cfg = s.cfg := rfl
@[simp] theorem State.present_w (s : State) (w : CmdWord) : (s.present w).w = s.w := rfl
@[simp] theorem State.present_r (s : State) (w : CmdWord) : (s.present w).r = s.r := rfl
@[simp] theorem State.present_wtW (s : State) (w : CmdWord) : (s.present w).wtW = s.wtW := rfl
@[simp] theorem State.present_wtR (s : State) (w : CmdWord) : (s.present w).wtR = s.wtR := rfl
@[simp] theorem State.present_sticky (s : State) (w : CmdWord) : (s.present w).sticky = s.sticky := rfl
@[simp] theorem State.present_freeCtr (s : State) (w : CmdWord) : (s.present w).freeCtr = s.freeCtr := rfl
@[simp] theorem State.present_pending (s : State) (w : CmdWord) : (s.present w).pending = .issue w :: s.pending := rfl
@[simp] theorem State.present_results (s : State) (w : CmdWord) : (s.present w).results = s.results := rfl

@[simp] theorem State.setTracker_w_cfg (s : State) (t : Tracker) : (s.setTracker .w t).cfg = s.cfg := rfl
@[simp] theorem State.setTracker_w_w (s : State) (t : Tracker) : (s.setTracker .w t).w = s.w := rfl
@[simp] theorem State.setTracker_w_r (s : State) (t : Tracker) : (s.setTracker .w t).r = s.r := rfl
@[simp] theorem State.setTracker_w_wtW (s : State) (t : Tracker) : (s.setTracker .w t).wtW = t := rfl
@[simp] theorem State.setTracker_w_wtR (s : State) (t : Tracker) : (s.setTracker .w t).wtR = s.wtR := rfl
@[simp] theorem State.setTracker_w_sticky (s : State) (t : Tracker) : (s.setTracker .w t).sticky = s.sticky := rfl
@[simp] theorem State.setTracker_w_freeCtr (s : State) (t : Tracker) : (s.setTracker .w t).freeCtr = s.freeCtr := rfl
@[simp] theorem State.setTracker_w_pending (s : State) (t : Tracker) : (s.setTracker .w t).pending = s.pending := rfl
@[simp] theorem State.setTracker_w_results (s : State) (t : Tracker) : (s.setTracker .w t).results = s.results := rfl

@[simp] theorem State.setTracker_r_cfg (s : State) (t : Tracker) : (s.setTracker .r t).cfg = s.cfg := rfl
@[simp] theorem State.setTracker_r_w (s : State) (t : Tracker) : (s.setTracker .r t).w = s.w := rfl
@[simp] theorem State.setTracker_r_r (s : State) (t : Tracker) : (s.setTracker .r t).r = s.r := rfl
@[simp] theorem State.setTracker_r_wtW (s : State) (t : Tracker) : (s.setTracker .r t).wtW = s.wtW := rfl
@[simp] theorem State.setTracker_r_wtR (s : State) (t : Tracker) : (s.setTracker .r t).wtR = t := rfl
@[simp] theorem State.setTracker_r_sticky (s : State) (t : Tracker) : (s.setTracker .r t).sticky = s.sticky := rfl
@[simp] theorem State.setTracker_r_freeCtr (s : State) (t : Tracker) : (s.setTracker .r t).freeCtr = s.freeCtr := rfl
@[simp] theorem State.setTracker_r_pending (s : State) (t : Tracker) : (s.setTracker .r t).pending = s.pending := rfl
@[simp] theorem State.setTracker_r_results (s : State) (t : Tracker) : (s.setTracker .r t).results = s.results := rfl

@[simp] theorem State.tracker_w (s : State) : s.tracker .w = s.wtW := rfl
@[simp] theorem State.tracker_r (s : State) : s.tracker .r = s.wtR := rfl

@[simp] theorem Reader.close_buf (r : Reader) : r.close.buf = r.buf := rfl
@[simp] theorem Reader.close_len (r : Reader) : r.close.len = r.len := rfl
@[simp] theorem Reader.close_act (r : Reader) : r.close.act = false := rfl
@[simp] theorem Reader.close_idx (r : Reader) : r.close.idx = 0 := rfl
@[simp] theorem Reader.close_cur (r : Reader) : r.close.cur = 0#6 := rfl
@[simp] theorem Reader.close_rem (r : Reader) : r.close.rem = 0#3 := rfl

@[simp] theorem Writer.append_acc (w : Writer) (u : CodeUnit) : (w.append u).acc = w.acc := rfl
@[simp] theorem Writer.append_pos (w : Writer) (u : CodeUnit) : (w.append u).pos = w.pos := rfl
@[simp] theorem Writer.append_out (w : Writer) (u : CodeUnit) : (w.append u).out = w.out ++ [u] := rfl

@[simp] theorem okCode_eq : okCode = 0#4 := rfl

/-- The model's `respond` is what statements call `answered` with code OK. -/
theorem State.respond_eq_answered (s : State) (d : Data) : s.respond d = s.answered 0#4 d := rfl

/-- The model's `raise` is what statements call `answered`, with the sticky bit of the error set. -/
theorem State.raise_eq_answered (s : State) (e : Err) (d : Data) :
    s.raise e d = { s with sticky := s.sticky ||| e.stickyMask }.answered e.code d := rfl

end Sys2Proof.Machine
end

