-- ==== Sys2Proof/Laws/Bits.lean ====
section
/-! SUPPORT. The alphabet, the bit orders and the number a bit list stands for: the small lemmas of Operands.lean. -/

namespace Sys2Proof.Machine

/-- R90, R91: reading a symbol back gives its value. -/
@[simp] theorem valueFor_symbolFor (v : SymVal) : valueFor (symbolFor v) = some v := by
  revert v; decide

theorem alphabet_length : alphabet.length = 64 := rfl

/-- R91: a unit with a value is the symbol of that value. -/
theorem symbolFor_of_valueFor {u : CodeUnit} {v : SymVal} (h : valueFor u = some v) : symbolFor v = u := by
  simp only [valueFor, Option.map_eq_some_iff, List.findIdx?_eq_some_iff_getElem] at h
  obtain ⟨i, ⟨hi, hu, -⟩, rfl⟩ := h
  have hi' : i < 64 := hi
  have hm : i % 64 = i := Nat.mod_eq_of_lt hi'
  simpa [symbolFor, hm, List.getD_eq_getElem?_getD, hi] using hu

@[simp] theorem isAlphabet_symbolFor (v : SymVal) : isAlphabet (symbolFor v) = true := by simp [isAlphabet]

@[simp] theorem codeBits_length (n : Nat) (v : Data) : (codeBits n v).length = n := by simp [codeBits]

@[simp] theorem symbolBits_length (v : SymVal) : (symbolBits v).length = 6 := by simp [symbolBits]

@[simp] theorem unitBits_nil : unitBits [] = [] := rfl

theorem unitBits_append (us vs : List CodeUnit) : unitBits (us ++ vs) = unitBits us ++ unitBits vs := by simp [unitBits]

@[simp] theorem unitBits_symbolFor (v : SymVal) : unitBits [symbolFor v] = symbolBits v := by simp [unitBits]

theorem unitBits_cons_of_valueFor {u : CodeUnit} {v : SymVal} (h : valueFor u = some v) (us : List CodeUnit) :
    unitBits (u :: us) = symbolBits v ++ unitBits us := by simp [unitBits, h]

/-- Every alphabet unit has 6 bits (R54). -/
theorem unitBits_length {us : List CodeUnit} (h : ∀ u ∈ us, isAlphabet u = true) : (unitBits us).length = 6 * us.length := by
  induction us with
  | nil => rfl
  | cons u us ih =>
    obtain ⟨v, hv⟩ := Option.isSome_iff_exists.1 (h u (by simp))
    rw [unitBits_cons_of_valueFor hv, List.length_append, symbolBits_length, ih fun x hx => h x (by simp [hx]), List.length_cons]
    omega

/-- Bit `i` of the number is the `i`-th bit of the list. -/
theorem valueOfBits_testBit (bs : List Bool) (i : Nat) : (valueOfBits bs).testBit i = bs.getD i false := by
  induction bs generalizing i with
  | nil => simp [valueOfBits]
  | cons b bs ih =>
    cases i with
    | zero => cases b <;> simp [valueOfBits, Nat.testBit_zero]
    | succ i =>
      rw [Nat.testBit_succ, valueOfBits]
      have : (b.toNat + 2 * valueOfBits bs) / 2 = valueOfBits bs := by
        have : b.toNat ≤ 1 := Bool.toNat_le b
        omega
      rw [this, ih]
      simp

/-- Bit `i` of the 32-bit response data made from a bit list. -/
theorem valueOfBits_getLsbD {k : Nat} (bs : List Bool) (h : bs.length ≤ k) (i : Nat) :
    (BitVec.ofNat k (valueOfBits bs)).getLsbD i = bs.getD i false := by
  rw [BitVec.getLsbD_ofNat, valueOfBits_testBit]
  by_cases hi : i < k
  · simp [hi]
  · have : bs[i]? = none := List.getElem?_eq_none (by omega)
    simp [this]

/-- The low `n` bits of the data made from `n` bits are those bits. -/
theorem map_getLsbD_valueOfBits {k : Nat} (bs : List Bool) (h : bs.length ≤ k) :
    (List.range bs.length).map (BitVec.ofNat k (valueOfBits bs)).getLsbD = bs := by
  apply List.ext_getElem
  · simp
  · intro i h1 h2
    simp [valueOfBits_getLsbD bs h, List.getElem?_eq_getElem h2]

/-- The number the low `n` bits of `v` stand for. -/
theorem valueOfBits_codeBits (n : Nat) (v : Data) : valueOfBits (codeBits n v) = v.toNat % 2 ^ n := by
  apply Nat.eq_of_testBit_eq
  intro i
  rw [valueOfBits_testBit, Nat.testBit_mod_two_pow]
  by_cases hi : i < n
  · simp [codeBits, hi, BitVec.getLsbD]
  · have : (codeBits n v)[i]? = none := List.getElem?_eq_none (by simp; omega)
    simp [hi]

/-- R94: bit `i` of the reversal. -/
theorem reverseBits16_getLsbD (x : BitVec 16) (i : Nat) (hi : i < 16) : (reverseBits16 x).getLsbD i = x.getLsbD (15 - i) := by
  rw [reverseBits16, valueOfBits_getLsbD _ (by simp)]
  simp [hi]

end Sys2Proof.Machine
end

