-- ==== Sys2Proof/Laws/Writing.lean ====
section
/-! SUPPORT. What PutBit, a sequence of PutBits and `writeCode` do, said once. -/

namespace Sys2Proof.Machine

/-- The accumulator after PutBit, before it is looked at (R110). -/
abbrev shiftIn (acc : SymVal) (b : Bool) : SymVal := (acc <<< 1) ||| BitVec.setWidth 6 (BitVec.ofBool b)

theorem putBit_emit {w : Writer} (h : w.pos + 1#3 = 6#3) (b : Bool) :
    w.putBit b = { acc := 0#6, pos := 0#3, out := w.out ++ [symbolFor (shiftIn w.acc b)] } := by
  simp [Writer.putBit, h, Writer.append]

theorem putBit_hold {w : Writer} (h : w.pos + 1#3 ≠ 6#3) (b : Bool) :
    w.putBit b = { w with acc := shiftIn w.acc b, pos := w.pos + 1#3 } := by
  simp [Writer.putBit, h]

theorem shiftIn_getLsbD_zero (acc : SymVal) (b : Bool) : (shiftIn acc b).getLsbD 0 = b := by
  cases b <;> simp [shiftIn]

theorem shiftIn_getLsbD_succ (acc : SymVal) (b : Bool) (i : Nat) (h : i + 1 < 6) :
    (shiftIn acc b).getLsbD (i + 1) = acc.getLsbD i := by
  cases b <;> simp [shiftIn] <;> omega

theorem shiftIn_lt (acc : SymVal) (b : Bool) (p : Nat) (hp : p ≤ 5) (h : acc.toNat < 2 ^ p) :
    (shiftIn acc b).toNat < 2 ^ (p + 1) := by
  have hpow : 2 ^ p ≤ 2 ^ 5 := Nat.pow_le_pow_right (by omega) hp
  have : (shiftIn acc b).toNat = 2 * acc.toNat + b.toNat := by
    have h2 : acc.toNat < 32 := by omega
    revert h2
    clear h hpow
    revert acc b
    decide
  rw [this, Nat.pow_succ]
  cases b <;> simp <;> omega

/-- The `k` low bits of `acc`, highest first. -/
abbrev lowBits (acc : SymVal) (k : Nat) : List Bool := (List.range k).map fun i => acc.getLsbD (k - 1 - i)

theorem lowBits_shiftIn (acc : SymVal) (b : Bool) (k : Nat) (h : k ≤ 5) : lowBits (shiftIn acc b) (k + 1) = lowBits acc k ++ [b] := by
  simp only [lowBits, List.range_succ, List.map_append, List.map_cons, List.map_nil]
  congr 1
  · apply List.map_congr_left
    intro i hi
    rw [List.mem_range] at hi
    rw [show k + 1 - 1 - i = (k - 1 - i) + 1 by omega, shiftIn_getLsbD_succ _ _ _ (by omega)]
  · simp

theorem symbolBits_eq_lowBits (v : SymVal) : symbolBits v = lowBits v 6 := rfl

theorem heldBits_eq_lowBits (w : Writer) : w.heldBits = lowBits w.acc w.pos.toNat := rfl

@[simp] theorem Writer.heldBits_length (w : Writer) : w.heldBits.length = w.pos.toNat := by simp [Writer.heldBits]

/-- PutBit, said once (R110): the invariant holds on, the stream gets one more bit, and OUT gets a symbol when the count
reaches 6. -/
theorem putBit_spec (w : Writer) (h : w.Ok) (b : Bool) :
    (w.putBit b).Ok ∧ (w.putBit b).stream = w.stream ++ [b] ∧
    (w.putBit b).pos.toNat = (w.pos.toNat + 1) % 6 ∧
    ∃ us, (w.putBit b).out = w.out ++ us ∧ us.length = (w.pos.toNat + 1) / 6 := by
  obtain ⟨hp, ha, ho⟩ := h
  by_cases h6 : w.pos + 1#3 = 6#3
  · have h5 : w.pos.toNat = 5 := by
      have := congrArg BitVec.toNat h6
      simp at this; omega
    rw [putBit_emit h6]
    refine ⟨⟨by simp, by simp, ?_⟩, ?_, by simp [h5], _, rfl, by simp [h5]⟩
    · intro u hu
      rcases List.mem_append.1 hu with hu | hu
      · exact ho u hu
      · rw [List.mem_singleton.1 hu]; exact isAlphabet_symbolFor _
    · simp only [Writer.stream, unitBits_append, unitBits_symbolFor, symbolBits_eq_lowBits, heldBits_eq_lowBits, h5,
        lowBits_shiftIn _ _ 5 (Nat.le_refl 5)]
      simp
  · have hn : (w.pos + 1#3).toNat = w.pos.toNat + 1 := by
      rw [BitVec.toNat_add]; simp; omega
    have h4 : w.pos.toNat ≤ 4 := by
      by_contra hgt
      apply h6
      apply BitVec.eq_of_toNat_eq
      rw [hn]; simp; omega
    rw [putBit_hold h6]
    refine ⟨⟨by simp only [hn]; omega, ?_, ho⟩, ?_, by simp only [hn]; omega, [], by simp, by simp; omega⟩
    · simp only [hn]
      exact shiftIn_lt _ _ _ hp ha
    · simp only [Writer.stream, heldBits_eq_lowBits, hn, lowBits_shiftIn _ _ _ hp, List.append_assoc]

/-- A sequence of PutBits, said once: the stream gets the bits in order, OUT one symbol for every 6 of them. -/
theorem putBits_spec (bs : List Bool) (w : Writer) (h : w.Ok) :
    (w.putBits bs).Ok ∧ (w.putBits bs).stream = w.stream ++ bs ∧
    (w.putBits bs).pos.toNat = (w.pos.toNat + bs.length) % 6 ∧
    ∃ us, (w.putBits bs).out = w.out ++ us ∧ us.length = (w.pos.toNat + bs.length) / 6 := by
  induction bs generalizing w with
  | nil =>
    have := h.1
    exact ⟨h, by simp [Writer.putBits], by simp [Writer.putBits]; omega, [], by simp [Writer.putBits], by simp; omega⟩
  | cons b bs ih =>
    obtain ⟨h1, h2, h3, us, h4, h5⟩ := putBit_spec w h b
    obtain ⟨i1, i2, i3, vs, i4, i5⟩ := ih (w.putBit b) h1
    have hp := h.1
    refine ⟨i1, ?_, ?_, us ++ vs, ?_, ?_⟩
    · rw [Writer.putBits, List.foldl_cons, ← Writer.putBits, i2, h2]; simp
    · rw [Writer.putBits, List.foldl_cons, ← Writer.putBits, i3, h3, List.length_cons]; omega
    · rw [Writer.putBits, List.foldl_cons, ← Writer.putBits, i4, h4]; simp
    · rw [List.length_append, h5, i5, h3, List.length_cons]; omega

/-- `writeCode` (R112), when the symbols fit. -/
theorem writeCode_fits {n : Nat} {v : Data} {s : State} (h : s.w.out.length + s.w.emits n ≤ s.cfg.outCap) :
    writeCode n v s = .next ({ s with w := s.w.putBits (codeBits n v) }.respond (BitVec.ofNat 32 (s.w.emits n))) := by
  simp [writeCode, Nat.not_lt.2 h]

/-- `writeCode` (R112), when they do not. -/
theorem writeCode_overflows {n : Nat} {v : Data} {s : State} (h : s.cfg.outCap < s.w.out.length + s.w.emits n) :
    writeCode n v s = .next (s.raise .outputOverflow (BitVec.ofNat 32 (s.w.emits n))) := by
  simp [writeCode, h]

/-- Everything `writeCode` can do. -/
theorem writeCode_cases (n : Nat) (v : Data) (s : State) :
    (s.w.out.length + s.w.emits n ≤ s.cfg.outCap ∧
      writeCode n v s = .next ({ s with w := s.w.putBits (codeBits n v) }.respond (BitVec.ofNat 32 (s.w.emits n)))) ∨
    (s.cfg.outCap < s.w.out.length + s.w.emits n ∧
      writeCode n v s = .next (s.raise .outputOverflow (BitVec.ofNat 32 (s.w.emits n)))) := by
  rcases Nat.lt_or_ge s.cfg.outCap (s.w.out.length + s.w.emits n) with h | h
  · exact .inr ⟨h, writeCode_overflows h⟩
  · exact .inl ⟨h, writeCode_fits h⟩

/-- The padded accumulator's bits are the held ones and then zeros (R114). -/
theorem symbolBits_padded (w : Writer) (h : w.Ok) :
    symbolBits w.padded = w.heldBits ++ List.replicate (6 - w.pos.toNat) false := by
  obtain ⟨hp, -, -⟩ := h
  apply List.ext_getElem
  · simp; omega
  · intro i h1 h2
    simp only [symbolBits_length] at h1
    simp only [symbolBits, Writer.padded, List.getElem_map, List.getElem_range, BitVec.getLsbD_shiftLeft, List.getElem_append,
      Writer.heldBits, List.getElem_replicate]
    split
    · rename_i hi
      simp only [List.length_map, List.length_range] at hi
      rw [show 5 - i - (6 - w.pos.toNat) = w.pos.toNat - 1 - i by omega]
      simp; omega
    · rename_i hi
      simp only [List.length_map, List.length_range] at hi
      simp; omega

end Sys2Proof.Machine
end

