-- ==== Sys2Proof/Laws/Reading.lean ====
section
/-! SUPPORT. What GetBit, a sequence of GetBits and `readCode` do, said once. -/

namespace Sys2Proof.Machine

theorem lowBits_succ (acc : SymVal) (k : Nat) : lowBits acc (k + 1) = acc.getLsbD k :: lowBits acc k := by
  simp only [lowBits, List.range_succ_eq_map, List.map_cons, List.map_map]
  congr 1
  apply List.map_congr_left
  intro i _
  simp only [Function.comp_apply]
  congr 1
  omega

theorem Reader.stream_eq (r : Reader) : r.stream = lowBits r.cur r.rem.toNat ++ unitBits (r.loaded.drop r.idx) := rfl

/-- A loaded cell of an open session holds an alphabet unit (R131: "never invalid"). -/
theorem Reader.Ok.cell {cap : Nat} {r : Reader} (h : r.Ok cap) (ha : r.act = true) (hi : r.idx < r.len) :
    ∃ u v, r.buf[r.idx]? = some u ∧ valueFor u = some v ∧ r.loaded.drop r.idx = u :: r.loaded.drop (r.idx + 1) := by
  obtain ⟨hb, hl, -, -, -, -, hv, -⟩ := h
  have hlen : r.idx < r.buf.length := by omega
  have hmem : r.idx < r.loaded.length := by simp [Reader.loaded]; omega
  have hget : r.loaded[r.idx] = r.buf[r.idx] := by simp [Reader.loaded]
  have halph := (hv ha).2 _ (List.getElem_mem hmem)
  obtain ⟨v, hvv⟩ := Option.isSome_iff_exists.1 halph
  refine ⟨r.buf[r.idx], v, List.getElem?_eq_getElem hlen, by rw [← hget]; exact hvv, ?_⟩
  rw [← hget, List.drop_eq_getElem_cons hmem]

/-- GetBit, said once (R131): with a bit left in an open session it delivers the next bit of the stream and keeps the rest;
IN, L and the session stay. -/
theorem getBit_spec (cap : Nat) (r : Reader) (h : r.Ok cap) (ha : r.act = true) (hav : 1 ≤ r.avail) :
    ∃ b r', r.getBit = some (b, r') ∧ r.stream = b :: r'.stream ∧ r'.Ok cap ∧ r'.buf = r.buf ∧ r'.len = r.len ∧
      r'.act = true ∧ r'.avail + 1 = r.avail ∧ r'.rem.toNat ≤ 5 := by
  by_cases h0 : r.rem = 0#3
  · have hi : r.idx < r.len := by simp [Reader.avail, h0] at hav; omega
    obtain ⟨u, v, hu, hv, hd⟩ := h.cell ha hi
    refine ⟨v.getLsbD 5, { r with cur := v, idx := r.idx + 1, rem := 5#3 }, ?_, ?_, ?_, rfl, rfl, ha, ?_, by simp⟩
    · simp [Reader.getBit, h0, Reader.unpack, hu, hv]
    · rw [Reader.stream_eq, Reader.stream_eq, h0, hd, unitBits_cons_of_valueFor hv, symbolBits_eq_lowBits, lowBits_succ]
      rfl
    · obtain ⟨h1, h2, h3, h4, h5, h6, h7, h8⟩ := h
      refine ⟨h1, h2, by simp only; omega, by simp, by simp, by simp [ha], h7, ?_⟩
      intro _
      simp [hu, hv]
    · simp [Reader.avail, h0]; omega
  · have hr : 1 ≤ r.rem.toNat := by
      by_contra hlt
      exact h0 (BitVec.eq_of_toNat_eq (by simp; omega))
    obtain ⟨h1, h2, h3, h4, h5, h6, h7, h8⟩ := h
    have hn : (r.rem - 1#3).toNat = r.rem.toNat - 1 := by
      rw [BitVec.toNat_sub_of_le (by simp [BitVec.le_def]; omega)]; simp
    refine ⟨r.cur.getLsbD (r.rem.toNat - 1), { r with rem := r.rem - 1#3 }, ?_, ?_, ?_, rfl, rfl, ha, ?_, by simp only [hn]; omega⟩
    · simp [Reader.getBit, h0]
    · rw [Reader.stream_eq, Reader.stream_eq]
      simp only [hn]
      conv_lhs => rw [show r.rem.toNat = r.rem.toNat - 1 + 1 by omega, lowBits_succ]
      rfl
    · refine ⟨h1, h2, h3, by simp only [hn]; omega, fun hi => absurd (h5 hi) h0, by simp [ha], h7, h8⟩
    · simp only [Reader.avail, hn]; omega

/-- A sequence of GetBits, said once: it delivers the next `n` bits of the stream, in order. -/
theorem getBits_spec (cap n : Nat) (r : Reader) (h : r.Ok cap) (ha : r.act = true) (hav : n ≤ r.avail) :
    ∃ bs r', r.getBits n = some (bs, r') ∧ bs.length = n ∧ r.stream = bs ++ r'.stream ∧ r'.Ok cap ∧ r'.buf = r.buf ∧
      r'.len = r.len ∧ r'.act = true ∧ r'.avail + n = r.avail ∧ (n = 0 → r' = r) ∧ (n ≠ 0 → r'.rem.toNat ≤ 5) := by
  induction n generalizing r with
  | zero => exact ⟨[], r, rfl, rfl, rfl, h, rfl, rfl, ha, rfl, fun _ => rfl, fun h => absurd rfl h⟩
  | succ n ih =>
    obtain ⟨b, r1, e1, s1, o1, b1, l1, a1, v1, m1⟩ := getBit_spec cap r h ha (by omega)
    obtain ⟨bs, r2, e2, n2, s2, o2, b2, l2, a2, v2, z2, m2⟩ := ih r1 o1 a1 (by omega)
    refine ⟨b :: bs, r2, ?_, by simp [n2], by rw [s1, s2]; rfl, o2, b2.trans b1, l2.trans l1, a2, by omega, by simp, ?_⟩
    · simp [Reader.getBits, e1, e2]
    · intro _
      by_cases hn : n = 0
      · rw [z2 hn]; exact m1
      · exact m2 hn

/-- `readCode` with no session open (R133, R184). -/
theorem readCode_notActive {n : Nat} {s : State} (h : s.r.act = false) : readCode n s = .next (s.raise .notActive 0#32) := by
  simp [readCode, h]

/-- `readCode` past the end of the input (R133). -/
theorem readCode_truncated {n : Nat} {s : State} (h : s.r.act = true) (hn : s.r.avail < n) :
    readCode n s = .next (s.raise .truncated (BitVec.ofNat 32 s.r.avail)) := by
  simp [readCode, h, hn]

/-- `readCode` in an open session with enough bits left (R133): the data is the number of the next `n` bits. -/
theorem readCode_delivers {n : Nat} {s : State} (hok : s.r.Ok s.cfg.inCap) (h : s.r.act = true) (hn : n ≤ s.r.avail) :
    ∃ bs r', readCode n s = .next ({ s with r := r' }.respond (BitVec.ofNat 32 (valueOfBits bs))) ∧ bs.length = n ∧
      s.r.stream = bs ++ r'.stream ∧ r'.Ok s.cfg.inCap ∧ r'.buf = s.r.buf ∧ r'.len = s.r.len ∧ r'.act = true ∧
      r'.avail + n = s.r.avail ∧ (n = 0 → r' = s.r) ∧ (n ≠ 0 → r'.rem.toNat ≤ 5) := by
  obtain ⟨bs, r', e, hl, hs, ho, hb, hlen, hact, hav, hz, hm⟩ := getBits_spec s.cfg.inCap n s.r hok h hn
  refine ⟨bs, r', ?_, hl, hs, ho, hb, hlen, hact, hav, hz, hm⟩
  simp [readCode, h, Nat.not_lt.2 hn, e]

/-- GetBit never touches IN, L or the session, whatever the state. -/
theorem getBit_frame {r r' : Reader} {b : Bool} (h : r.getBit = some (b, r')) :
    r'.buf = r.buf ∧ r'.len = r.len ∧ r'.act = r.act ∧ r.idx ≤ r'.idx := by
  unfold Reader.getBit at h
  split at h
  · cases h
  · rename_i r1 h1
    cases h
    split at h1
    · unfold Reader.unpack at h1
      split at h1
      · cases h1
      · split at h1
        · cases h1
        · cases h1; simp
    · cases h1; simp

theorem getBits_frame {n : Nat} {r r' : Reader} {bs : List Bool} (h : r.getBits n = some (bs, r')) :
    r'.buf = r.buf ∧ r'.len = r.len ∧ r'.act = r.act ∧ r.idx ≤ r'.idx := by
  induction n generalizing r bs with
  | zero => cases h; simp
  | succ n ih =>
    simp only [Reader.getBits] at h
    split at h
    · cases h
    · rename_i b r1 h1
      split at h
      · cases h
      · rename_i bs' r2 h2
        cases h
        obtain ⟨a1, a2, a3, a4⟩ := getBit_frame h1
        obtain ⟨c1, c2, c3, c4⟩ := ih h2
        exact ⟨c1.trans a1, c2.trans a2, c3.trans a3, a4.trans c4⟩

/-- Everything `readCode` can do when it goes on: NotActive, Truncated, or a read that leaves IN, L and the session. -/
theorem readCode_cases {n : Nat} {s t : State} (h : readCode n s = .next t) :
    (s.r.act = false ∧ t = s.raise .notActive 0#32) ∨
    (s.r.act = true ∧ s.r.avail < n ∧ t = s.raise .truncated (BitVec.ofNat 32 s.r.avail)) ∨
    (s.r.act = true ∧ n ≤ s.r.avail ∧ ∃ bs r', s.r.getBits n = some (bs, r') ∧ r'.buf = s.r.buf ∧ r'.len = s.r.len ∧
      r'.act = true ∧ t = { s with r := r' }.respond (BitVec.ofNat 32 (valueOfBits bs))) := by
  unfold readCode at h
  split at h
  · rename_i ha
    cases h
    exact .inl ⟨ha, rfl⟩
  · rename_i ha
    have ha : s.r.act = true := by simpa using ha
    split at h
    · rename_i hn
      cases h
      exact .inr (.inl ⟨ha, hn, rfl⟩)
    · rename_i hn
      split at h
      · cases h
      · rename_i bs r' hg
        cases h
        obtain ⟨f1, f2, f3, -⟩ := getBits_frame hg
        exact .inr (.inr ⟨ha, Nat.le_of_not_lt hn, bs, r', hg, f1, f2, f3.trans ha, rfl⟩)

end Sys2Proof.Machine
end

