-- ==== Sys2Proof/Laws/Commands.lean ====
section
/-! SUPPORT. Everything a command and a step can do when they go on, said once. -/

namespace Sys2Proof.Machine

/-- What a command that succeeds leaves of the block's state `s`, before its response is delivered. -/
def Succeeds (i : Instr) (s s1 : State) : Prop :=
  match i with
  | .nop | .wtRead _ _ | .symEnc _ | .rev16 _ | .status false => s1 = s
  | .symDec u => s1 = s ∧ isAlphabet u = true
  | .status true => s1 = { s with sticky := 0#6 }
  | .wInit => s1 = { s with w := { acc := 0#6, pos := 0#3, out := [] } }
  | .wBits n v => s1 = { s with w := s.w.putBits (codeBits n.toNat v) } ∧ s.w.out.length + s.w.emits n.toNat ≤ s.cfg.outCap
  | .wCode v =>
    s1 = { s with w := s.w.putBits (codeBits s.wtW.nb.toNat v) } ∧ s.w.out.length + s.w.emits s.wtW.nb.toNat ≤ s.cfg.outCap
  | .wFlush =>
    (s.w.pos = 0#3 ∧ s1 = s) ∨
    (s.w.out.length + 1 ≤ s.cfg.outCap ∧ s.w.pos = 0#3 ∧ s1 = { s with w := s.w.append (symbolFor 0#6) }) ∨
    (s.w.out.length + 1 ≤ s.cfg.outCap ∧ s.w.pos ≠ 0#3 ∧
      s1 = { s with w := { acc := 0#6, pos := 0#3, out := s.w.out ++ [symbolFor s.w.padded] } })
  | .rStart => s1 = { s with r := { s.r.close with act := true } } ∧ s.r.len ≠ 0 ∧ s.r.firstInvalid = none
  | .rBits n => s.r.act = true ∧ n.toNat ≤ s.r.avail ∧ ∃ bs r', s.r.getBits n.toNat = some (bs, r') ∧ s1 = { s with r := r' }
  | .rCode =>
    s.r.act = true ∧ s.wtR.nb.toNat ≤ s.r.avail ∧ ∃ bs r', s.r.getBits s.wtR.nb.toNat = some (bs, r') ∧ s1 = { s with r := r' }
  | .wtInit c n e => s1 = s.setTracker c ⟨n, e⟩
  | .wtStep c => ∃ t g, (s.tracker c).step = some (t, g) ∧ s1 = s.setTracker c t
  | .reserved _ => False

/-- The state a raising command leaves alone but for the sticky bit: R_START has closed the session first (R183). -/
def raiseBase (i : Instr) (s : State) : State := if i = .rStart then { s with r := s.r.close } else s

@[simp] theorem raiseBase_cfg (i : Instr) (s : State) : (raiseBase i s).cfg = s.cfg := by unfold raiseBase; split <;> rfl
@[simp] theorem raiseBase_w (i : Instr) (s : State) : (raiseBase i s).w = s.w := by unfold raiseBase; split <;> rfl
@[simp] theorem raiseBase_wtW (i : Instr) (s : State) : (raiseBase i s).wtW = s.wtW := by unfold raiseBase; split <;> rfl
@[simp] theorem raiseBase_wtR (i : Instr) (s : State) : (raiseBase i s).wtR = s.wtR := by unfold raiseBase; split <;> rfl
@[simp] theorem raiseBase_sticky (i : Instr) (s : State) : (raiseBase i s).sticky = s.sticky := by unfold raiseBase; split <;> rfl
@[simp] theorem raiseBase_freeCtr (i : Instr) (s : State) : (raiseBase i s).freeCtr = s.freeCtr := by unfold raiseBase; split <;> rfl
@[simp] theorem raiseBase_pending (i : Instr) (s : State) : (raiseBase i s).pending = s.pending := by unfold raiseBase; split <;> rfl
@[simp] theorem raiseBase_results (i : Instr) (s : State) : (raiseBase i s).results = s.results := by unfold raiseBase; split <;> rfl
@[simp] theorem raiseBase_buf (i : Instr) (s : State) : (raiseBase i s).r.buf = s.r.buf := by unfold raiseBase; split <;> rfl
@[simp] theorem raiseBase_len (i : Instr) (s : State) : (raiseBase i s).r.len = s.r.len := by unfold raiseBase; split <;> rfl

theorem raiseBase_of_ne {i : Instr} (s : State) (h : i ≠ .rStart) : raiseBase i s = s := by simp [raiseBase, h]

/-- A command that goes on has succeeded and answered OK, or raised and changed nothing but the sticky bit. -/
theorem exec_cases {i : Instr} {s t : State} (h : exec i s = .next t) :
    (∃ s1 d, Succeeds i s s1 ∧ t = s1.respond d) ∨ ∃ e d, t = (raiseBase i s).raise e d := by
  cases i with
  | nop => cases h; exact .inl ⟨s, _, rfl, rfl⟩
  | wInit => cases h; exact .inl ⟨_, _, rfl, rfl⟩
  | wBits n v =>
    rcases writeCode_cases n.toNat v s with ⟨hf, he⟩ | ⟨hf, he⟩
    · rw [exec, execWBits, he] at h; cases h
      exact .inl ⟨_, _, ⟨rfl, hf⟩, rfl⟩
    · rw [exec, execWBits, he] at h; cases h
      exact .inr ⟨_, _, rfl⟩
  | wCode v =>
    rcases writeCode_cases s.wtW.nb.toNat v s with ⟨hf, he⟩ | ⟨hf, he⟩
    · rw [exec, execWCode, he] at h; cases h
      exact .inl ⟨_, _, ⟨rfl, hf⟩, rfl⟩
    · rw [exec, execWCode, he] at h; cases h
      exact .inr ⟨_, _, rfl⟩
  | wFlush =>
    simp only [exec, execWFlush, flushSymbol, flushZeroSymbol] at h
    split at h
    · rename_i hp
      split at h
      · cases h; exact .inl ⟨s, _, .inl ⟨hp, rfl⟩, rfl⟩
      · split at h
        · cases h; exact .inr ⟨_, _, rfl⟩
        · rename_i hc
          cases h; exact .inl ⟨_, _, .inr (.inl ⟨Nat.le_of_not_lt hc, hp, rfl⟩), rfl⟩
    · rename_i hp
      split at h
      · cases h; exact .inr ⟨_, _, rfl⟩
      · rename_i hc
        cases h; exact .inl ⟨_, _, .inr (.inr ⟨Nat.le_of_not_lt hc, hp, rfl⟩), rfl⟩
  | rStart =>
    simp only [exec, execRStart] at h
    split at h
    · cases h; exact .inr ⟨_, _, rfl⟩
    · rename_i hl
      split at h
      · cases h; exact .inr ⟨_, _, rfl⟩
      · rename_i hv
        cases h; exact .inl ⟨_, _, ⟨rfl, hl, hv⟩, rfl⟩
  | rBits n =>
    rcases readCode_cases h with ⟨-, rfl⟩ | ⟨-, -, rfl⟩ | ⟨ha, hn, bs, r', hg, -, -, -, rfl⟩
    · exact .inr ⟨_, _, rfl⟩
    · exact .inr ⟨_, _, rfl⟩
    · exact .inl ⟨_, _, ⟨ha, hn, bs, r', hg, rfl⟩, rfl⟩
  | rCode =>
    rcases readCode_cases h with ⟨-, rfl⟩ | ⟨-, -, rfl⟩ | ⟨ha, hn, bs, r', hg, -, -, -, rfl⟩
    · exact .inr ⟨_, _, rfl⟩
    · exact .inr ⟨_, _, rfl⟩
    · exact .inl ⟨_, _, ⟨ha, hn, bs, r', hg, rfl⟩, rfl⟩
  | wtInit c n e => cases h; exact .inl ⟨_, _, rfl, rfl⟩
  | wtStep c =>
    simp only [exec, execWtStep] at h
    split at h
    · cases h; exact .inr ⟨_, _, rfl⟩
    · rename_i t' g hs
      cases h; exact .inl ⟨_, _, ⟨t', g, hs, rfl⟩, rfl⟩
  | wtRead c f => cases f <;> (cases h; exact .inl ⟨s, _, rfl, rfl⟩)
  | symEnc v => cases h; exact .inl ⟨s, _, rfl, rfl⟩
  | symDec u =>
    simp only [exec, execSymDec] at h
    split at h
    · cases h; exact .inr ⟨_, _, rfl⟩
    · rename_i v hv
      cases h; exact .inl ⟨s, _, ⟨rfl, by simp [isAlphabet, hv]⟩, rfl⟩
  | rev16 x => cases h; exact .inl ⟨s, _, rfl, rfl⟩
  | status clr => cases clr <;> (cases h; exact .inl ⟨_, _, rfl, rfl⟩)
  | reserved x => cases h; exact .inr ⟨_, _, rfl⟩

/-- A command that succeeds leaves the parameters, the pending actions and what the host already got. -/
theorem Succeeds.frame {i : Instr} {s s1 : State} (h : Succeeds i s s1) :
    s1.cfg = s.cfg ∧ s1.pending = s.pending ∧ s1.results = s.results ∧ s1.freeCtr = s.freeCtr := by
  cases i with
  | nop => cases h; simp
  | wInit => cases h; simp
  | wBits n v => obtain ⟨rfl, -⟩ := h; simp
  | wCode v => obtain ⟨rfl, -⟩ := h; simp
  | wFlush => rcases h with ⟨-, rfl⟩ | ⟨-, -, rfl⟩ | ⟨-, -, rfl⟩ <;> simp
  | rStart => obtain ⟨rfl, -⟩ := h; simp
  | rBits n => obtain ⟨-, -, bs, r', -, rfl⟩ := h; simp
  | rCode => obtain ⟨-, -, bs, r', -, rfl⟩ := h; simp
  | wtInit c n e => cases h; cases c <;> simp
  | wtStep c => obtain ⟨t, g, -, rfl⟩ := h; cases c <;> simp
  | wtRead c f => cases h; simp
  | symEnc v => cases h; simp
  | symDec u => obtain ⟨rfl, -⟩ := h; simp
  | rev16 x => cases h; simp
  | status clr => cases clr <;> (cases h; simp)
  | reserved x => exact h.elim

/-- Every error's code is one of 1 to 6, and its sticky bit is bit code - 1 (R181). -/
theorem Err.stickyMask_eq (e : Err) :
    1 ≤ e.code.toNat ∧ e.code.toNat ≤ 6 ∧ e.stickyMask = 1#6 <<< (e.code.toNat - 1) := by cases e <;> decide

theorem execAll_append (is js : List Instr) (s : State) :
    execAll (is ++ js) s = match execAll is s with
      | .next t => execAll js t
      | .fault f => .fault f
      | .refused r => .refused r := by
  induction is generalizing s with
  | nil => rfl
  | cons i is ih =>
    simp only [List.cons_append, execAll]
    cases exec i s <;> simp [ih]

/-- A step that goes on: nothing is pending, or the first pending action is taken and does one of five things. -/
theorem step_cases {s t : State} (h : step s = .next t) :
    (s.pending = [] ∧ t = s) ∨
    ∃ a rest, s.pending = a :: rest ∧
      ((∃ w i, a = .issue w ∧ decode w = .ok i ∧ exec i { s with pending := rest } = .next t) ∨
       (∃ w e, a = .issue w ∧ decode w = .error e ∧ t = State.raise { s with pending := rest } .illegalCommand 0#32) ∨
       (∃ us, a = .loadIn us ∧ us.length ≤ s.cfg.inCap ∧
         t = { s with pending := rest, r := { s.r.close with buf := us ++ s.r.buf.drop us.length, len := us.length } }) ∨
       (∃ k, a = .drainOut k ∧ k ≤ s.w.out.length ∧
         t = { s with pending := rest, w := { s.w with out := s.w.out.drop k }, results := s.results ++ [.drained (s.w.out.take k)] }) ∨
       (a = .reset ∧ t = { State.powerOn s.cfg s.freeCtr with pending := rest, results := s.results })) := by
  simp only [step, nextAction] at h
  split at h
  · rename_i hp
    cases h; exact .inl ⟨hp, rfl⟩
  · rename_i a rest hp
    refine .inr ⟨a, rest, hp, ?_⟩
    cases a with
    | issue w =>
      simp only [perform, issue] at h
      split at h
      · rename_i i hd
        exact .inl ⟨w, i, rfl, hd, h⟩
      · rename_i e hd
        cases h; exact .inr (.inl ⟨w, e, rfl, hd, rfl⟩)
    | loadIn us =>
      simp only [perform, loadIn] at h
      split at h
      · cases h
      · rename_i hc
        cases h; exact .inr (.inr (.inl ⟨us, rfl, Nat.le_of_not_lt hc, rfl⟩))
    | drainOut k =>
      simp only [perform, drainOut] at h
      split at h
      · cases h
      · rename_i hc
        cases h; exact .inr (.inr (.inr (.inl ⟨k, rfl, Nat.le_of_not_lt hc, rfl⟩)))
    | reset =>
      cases h; exact .inr (.inr (.inr (.inr ⟨rfl, rfl⟩)))

/-- A step whose next action is the ISSUE of a word. -/
theorem step_issue {s : State} {w : CmdWord} {rest : List HostAction} (h : s.pending = .issue w :: rest) :
    step s = issue w { s with pending := rest } := by simp [step, nextAction, h, perform]

/-- R76: what ISSUE of a word with OP = `op` does follows from what its row of the decoder answers. -/
theorem issuedWords_of_decode {op : BitVec 4} {legal : Fields → Prop} {i : Fields → Instr}
    (h : ∀ (c : BitVec 1) (n : BitVec 6) (s : BitVec 1) (z : BitVec 20) (v : BitVec 32) (low : BitVec 60),
      (legal ⟨op, c, n, s, z, v⟩ → decodeFields ⟨op, c, n, s, z, v⟩ low = .ok (i ⟨op, c, n, s, z, v⟩)) ∧
      (¬ legal ⟨op, c, n, s, z, v⟩ → ∃ e, decodeFields ⟨op, c, n, s, z, v⟩ low = .error e)) : IssuedWords op legal i := by
  intro s w ho
  have hd : decode w = decodeFields (Fields.ofWord w) (w.extractLsb' 0 60) := rfl
  rw [issue, hd]
  generalize w.extractLsb' 0 60 = low
  generalize Fields.ofWord w = f at ho ⊢
  obtain ⟨op', c, n, s', z, v⟩ := f
  cases ho
  obtain ⟨h1, h2⟩ := h c n s' z v low
  refine ⟨fun hl => by rw [h1 hl], fun hl => ?_⟩
  obtain ⟨e, he⟩ := h2 hl
  rw [he]; rfl

theorem Writer.Ok.putBits {w : Writer} (h : w.Ok) (bs : List Bool) : (w.putBits bs).Ok := (putBits_spec bs w h).1

/-- `Step(T)` keeps `nb` in 0..32 (R27). -/
theorem Tracker.Ok.step {t t' : Tracker} {g : Bool} (h : t.Ok) (hs : t.step = some (t', g)) : t'.Ok := by
  simp only [Tracker.step] at hs
  split at hs
  · split at hs
    · cases hs
    · rename_i hn
      cases hs
      have hne : t.nb.toNat ≠ 32 := fun hh => hn (BitVec.eq_of_toNat_eq (by simp [hh]))
      have hle : t.nb.toNat ≤ 32 := h
      show (t.nb + 1#6).toNat ≤ 32
      rw [BitVec.toNat_add]; simp; omega
  · cases hs; exact h

/-- A closed session meets the invariant (R26). -/
theorem Reader.Ok.close {cap : Nat} {r : Reader} (h : r.Ok cap) : r.close.Ok cap :=
  ⟨h.1, h.2.1, Nat.zero_le _, by simp, fun _ => rfl, fun _ => ⟨rfl, rfl, rfl⟩, by simp, by simp⟩

end Sys2Proof.Machine
end

