-- ==== Sys2Proof/Laws/Decoding.lean ====
section
/-! SUPPORT. The small lemmas of the decoder and the encoder: fields and words, masks, one row's legality. -/

namespace Sys2Proof

/-- The word with these fields (R71). -/
def Fields.toWord (f : Fields) : CmdWord := assembleWord f.op f.c f.n f.s f.v ||| (f.z.setWidth 64 <<< 32)

theorem Fields.ofWord_toWord (f : Fields) : Fields.ofWord f.toWord = f := by
  obtain ⟨op, c, n, s, z, v⟩ := f
  simp only [Fields.ofWord, Fields.toWord, assembleWord, Fields.mk.injEq]
  refine ⟨?_, ?_, ?_, ?_, ?_, ?_⟩ <;>
  · ext i hi
    simp
    interval_cases i <;> simp

theorem Fields.toWord_ofWord (w : CmdWord) : (Fields.ofWord w).toWord = w := by
  simp only [Fields.ofWord, Fields.toWord, assembleWord]
  ext i hi
  simp
  interval_cases i <;> simp

theorem assembleWord_eq_toWord (op : BitVec 4) (c : BitVec 1) (n : BitVec 6) (s : BitVec 1) (v : BitVec 32) :
    assembleWord op c n s v = Fields.toWord { op := op, c := c, n := n, s := s, z := 0#20, v := v } := by
  simp [Fields.toWord]

/-- The fields of the assembled word are the operands, with Z zero (R77). -/
theorem Fields.ofWord_assembleWord (op : BitVec 4) (c : BitVec 1) (n : BitVec 6) (s : BitVec 1) (v : BitVec 32) :
    Fields.ofWord (assembleWord op c n s v) = { op := op, c := c, n := n, s := s, z := 0#20, v := v } := by
  rw [assembleWord_eq_toWord, Fields.ofWord_toWord]

/-- The fields masked one by one. -/
def Fields.mask (f m : Fields) : Fields :=
  ⟨f.op &&& m.op, f.c &&& m.c, f.n &&& m.n, f.s &&& m.s, f.z &&& m.z, f.v &&& m.v⟩

theorem Fields.ofWord_and (w m : CmdWord) : Fields.ofWord (w &&& m) = (Fields.ofWord w).mask (Fields.ofWord m) := by
  simp [Fields.ofWord, Fields.mask, BitVec.extractLsb'_and]

/-- A masked comparison of words is one of fields (R73). -/
theorem masked_iff (w mask mat : CmdWord) :
    w &&& mask = mat ↔ (Fields.ofWord w).mask (Fields.ofWord mask) = Fields.ofWord mat := by
  rw [← Fields.ofWord_and]
  exact ⟨fun h => h ▸ rfl, fun h => by rw [← Fields.toWord_ofWord (w &&& mask), h, Fields.toWord_ofWord]⟩

theorem decode_eq (w : CmdWord) : decode w = decodeFields (Fields.ofWord w) (w.extractLsb' 0 60) := rfl

/-- When a row accepts (R73). -/
theorem accept_eq_ok {f : Fields} {unusedZero inRange : Bool} {why : Illegal} {i j : Instr} :
    accept f unusedZero inRange why i = .ok j ↔ f.z = 0#20 ∧ unusedZero = true ∧ inRange = true ∧ i = j := by
  unfold accept
  split
  · simp_all
  · split
    · simp_all
    · split <;> simp_all

theorem chanOf_bit (c : Chan) : chanOf c.bit = c := by cases c <;> rfl
theorem bit_chanOf (c : BitVec 1) : (chanOf c).bit = c := by revert c; decide
theorem trackerFieldOf_bit (f : TrackerField) : trackerFieldOf f.bit = f := by cases f <;> rfl
theorem bit_trackerFieldOf (s : BitVec 1) : (trackerFieldOf s).bit = s := by revert s; decide

theorem encode_reserved_op (x : BitVec 60) : (Fields.ofWord (encode (.reserved x))).op = 0xF#4 := by
  simp only [Fields.ofWord, encode]
  ext i hi
  simp
  interval_cases i <;> simp

theorem encode_reserved_low (x : BitVec 60) : (encode (.reserved x)).extractLsb' 0 60 = x := by
  simp only [encode]
  ext i hi
  simp
  interval_cases i <;> simp

end Sys2Proof
end

