-- ==== Sys2Proof/Laws/PerInstr.lean ====
section
/-! SUPPORT. What is said of every instruction as syntax, one lemma per constructor: the fields its word has (R71, R77). -/

namespace Sys2Proof.Laws.EncodedFields

/-- The fields R77's table gives an instruction's word: OP of R72, and every field the instruction does not use zero. -/
def fieldsOf : Instr → Fields
  | .nop => ⟨0x0, 0, 0, 0, 0, 0⟩
  | .wInit => ⟨0x1, 0, 0, 0, 0, 0⟩
  | .wBits n v => ⟨0x2, 0, n, 0, 0, v⟩
  | .wCode v => ⟨0x3, 0, 0, 0, 0, v⟩
  | .wFlush => ⟨0x4, 0, 0, 0, 0, 0⟩
  | .rStart => ⟨0x5, 0, 0, 0, 0, 0⟩
  | .rBits n => ⟨0x6, 0, n, 0, 0, 0⟩
  | .rCode => ⟨0x7, 0, 0, 0, 0, 0⟩
  | .wtInit c n e => ⟨0x8, c.bit, n, 0, 0, e⟩
  | .wtStep c => ⟨0x9, c.bit, 0, 0, 0, 0⟩
  | .wtRead c f => ⟨0xA, c.bit, 0, f.bit, 0, 0⟩
  | .symEnc v => ⟨0xB, 0, 0, 0, 0, v.setWidth 32⟩
  | .symDec u => ⟨0xC, 0, 0, 0, 0, u.setWidth 32⟩
  | .rev16 x => ⟨0xD, 0, 0, 0, 0, x.setWidth 32⟩
  | .status clr => ⟨0xE, 0, 0, BitVec.ofBool clr, 0, 0⟩
  | .reserved x => Fields.ofWord ((0xF#64 <<< 60) ||| x.setWidth 64)

/-- The word of `i` has the fields its row gives it. -/
def Statement (i : Instr) : Prop := Fields.ofWord (encode i) = fieldsOf i

theorem nop : Statement .nop := Fields.ofWord_assembleWord _ _ _ _ _
theorem wInit : Statement .wInit := Fields.ofWord_assembleWord _ _ _ _ _
theorem wBits (n : BitVec 6) (v : Data) : Statement (.wBits n v) := Fields.ofWord_assembleWord _ _ _ _ _
theorem wCode (v : Data) : Statement (.wCode v) := Fields.ofWord_assembleWord _ _ _ _ _
theorem wFlush : Statement .wFlush := Fields.ofWord_assembleWord _ _ _ _ _
theorem rStart : Statement .rStart := Fields.ofWord_assembleWord _ _ _ _ _
theorem rBits (n : BitVec 6) : Statement (.rBits n) := Fields.ofWord_assembleWord _ _ _ _ _
theorem rCode : Statement .rCode := Fields.ofWord_assembleWord _ _ _ _ _
theorem wtInit (c : Chan) (n : BitVec 6) (e : Data) : Statement (.wtInit c n e) := Fields.ofWord_assembleWord _ _ _ _ _
theorem wtStep (c : Chan) : Statement (.wtStep c) := Fields.ofWord_assembleWord _ _ _ _ _
theorem wtRead (c : Chan) (f : TrackerField) : Statement (.wtRead c f) := Fields.ofWord_assembleWord _ _ _ _ _
theorem symEnc (v : SymVal) : Statement (.symEnc v) := Fields.ofWord_assembleWord _ _ _ _ _
theorem symDec (u : CodeUnit) : Statement (.symDec u) := Fields.ofWord_assembleWord _ _ _ _ _
theorem rev16 (x : BitVec 16) : Statement (.rev16 x) := Fields.ofWord_assembleWord _ _ _ _ _
theorem status (clr : Bool) : Statement (.status clr) := Fields.ofWord_assembleWord _ _ _ _ _
theorem reserved (x : BitVec 60) : Statement (.reserved x) := rfl

end Sys2Proof.Laws.EncodedFields
end

