-- ==== Sys2Proof/Machine/Assembler.lean ====
section
/-! DEFINITION. The text of an assembler line (30_encoding.md R77, R78): "one command per line, operands separated by
commas, numbers in decimal or `0x` hexadecimal, `;` starting a comment". The lines themselves, their operand ranges and
their words are `AsmLine` in Decode.lean. -/

namespace Sys2Proof

/-- A digit of a number in the given base. -/
def digitValue (base : Nat) (c : Char) : Option Nat :=
  let d := if '0' ≤ c ∧ c ≤ '9' then c.toNat - 48
    else if 'a' ≤ c ∧ c ≤ 'f' then c.toNat - 87
    else if 'A' ≤ c ∧ c ≤ 'F' then c.toNat - 55
    else base
  if d < base then some d else none

/-- The number that digits, the most significant first, add to `acc`. -/
def digitsValue (base : Nat) : List Char → Nat → Option Nat
  | [], acc => some acc
  | c :: cs, acc => (digitValue base c).bind fun d => digitsValue base cs (base * acc + d)

/-- A number as written: `0x` and hexadecimal digits, or decimal digits. -/
def numberOfText : List Char → Option Nat
  | [] | ['0', 'x'] => none
  | '0' :: 'x' :: cs => digitsValue 16 cs 0
  | cs => digitsValue 10 cs 0

/-- A channel as written: "`W` assembles to c = 0 and `R` to c = 1". -/
def chanOfText : List Char → Option Chan
  | ['W'] => some .w
  | ['R'] => some .r
  | _ => none

/-- The field of WT_READ as written. -/
def trackerFieldOfText : List Char → Option TrackerField
  | ['N', 'B'] => some .nb
  | ['E', 'I'] => some .ei
  | _ => none

/-- Blanks and tabs, which only separate (log entry 16). -/
def isBlank (c : Char) : Bool := c = ' ' || c = '\t'

/-- Text without the blanks around it. -/
def trimText (cs : List Char) : List Char := ((cs.dropWhile isBlank).reverse.dropWhile isBlank).reverse

/-- Operands, separated by commas; no text is no operand. -/
def operandsOfText (cs : List Char) : List (List Char) :=
  if trimText cs = [] then [] else (cs.splitOnP (· == ',')).map trimText

/-- A mnemonic and its operands as a line, with the syntax of R77 and R78. -/
def lineOfParts (mnemonic : String) (ops : List (List Char)) : Option AsmLine :=
  match mnemonic, ops with
  | "NOP", [] => some .nop
  | "W_INIT", [] => some .wInit
  | "W_BITS", [n, v] => (numberOfText n).bind fun n => (numberOfText v).map fun v => .wBits n v
  | "W_CODE", [v] => (numberOfText v).map .wCode
  | "W_FLUSH", [] => some .wFlush
  | "R_START", [] => some .rStart
  | "R_BITS", [n] => (numberOfText n).map .rBits
  | "R_CODE", [] => some .rCode
  | "WT_INIT", [c, n, e] =>
    (chanOfText c).bind fun c => (numberOfText n).bind fun n => (numberOfText e).map fun e => .wtInit c n e
  | "WT_STEP", [c] => (chanOfText c).map .wtStep
  | "WT_READ", [c, f] => (chanOfText c).bind fun c => (trackerFieldOfText f).map fun f => .wtRead c f
  | "SYM_ENC", [v] => (numberOfText v).map .symEnc
  | "SYM_DEC", [u] => (numberOfText u).map .symDec
  | "REV16", [x] => (numberOfText x).map .rev16
  | "STATUS", [] => some .status
  | "STATUS.CLR", [] => some .statusClr
  | "W_EOS", [] => some .wEos
  | "WT_STEP2", [c] => (chanOfText c).map .wtStep2
  | "W_REF", [v] => (numberOfText v).map .wRef
  | "R_REF", [] => some .rRef
  | _, _ => none

/-- A line of text: none where it is not assembler syntax; no line at all where it holds only blanks and a comment. -/
def asmLineOfText (text : String) : Option (Option AsmLine) :=
  let code := trimText (text.toList.takeWhile (· != ';'))
  if code = [] then some none
  else (lineOfParts (String.ofList (code.takeWhile fun c => !isBlank c))
    (operandsOfText (code.dropWhile fun c => !isBlank c))).map some

/-- The words of a line of text (R77): none where the text or an operand is refused. -/
def wordsOfText (text : String) : Option (List CmdWord) :=
  match asmLineOfText text with
  | none => none
  | some none => some []
  | some (some l) => l.assemble

end Sys2Proof
end

