-- ==== Sys2Proof/Tests/Slice0.lean ====
section
/-! SUPPORT. Tests whose expected results come from the spec's own tables and vectors (95_test_vectors.md), the smoke tests
of WellFormed, and one witness for the hypotheses of each statement. -/

/- One theorem at a time: elaborated all at once, these small kernel evaluations would each wait on a thread of
their own, and the threads' stacks add up past the memory limit. -/
set_option Elab.async false

namespace Sys2Proof.Tests

open Sys2Proof.Machine

/-! ### Small states -/

/-- A block just after power-on with `P_IN_CAP = 8`, the given `P_OUT_CAP` and `P_FLUSH_EMPTY`, and IN holding zeros. -/
def fresh (outCap : Nat) (fe : FlushEmpty) : State :=
  { cfg := ⟨8, outCap, fe⟩, w := ⟨0#6, 0#3, []⟩, r := ⟨List.replicate 8 0#16, 0, false, 0, 0#6, 0#3⟩,
    wtW := ⟨0#6, 0#32⟩, wtR := ⟨0#6, 0#32⟩, sticky := 0#6, freeCtr := 1, pending := [], results := [] }

/-- `fresh 64 NONE`, the vectors' default. -/
def base : State := fresh 64 .emitNone

/-- `base` after LOAD_IN of these units (R59). -/
def loaded (us : List CodeUnit) : State :=
  { base with r := { base.r with buf := us ++ List.replicate (8 - us.length) 0#16, len := us.length } }

/-- `loaded` with an open session (R132). -/
def opened (us : List CodeUnit) : State := { loaded us with r := { (loaded us).r with act := true } }

/-- `base` with one host action pending. -/
def pend (s : State) (a : HostAction) : State := { s with pending := [a] }

/-- The last thing the host got. -/
def answer : Result → Option HostResult
  | .next t => t.results.getLast?
  | .fault _ | .refused _ => none

/-- The state a result goes on to. -/
def after : Result → Option State
  | .next t => some t
  | .fault _ | .refused _ => none

/-- A response as the vectors write it: code and data. -/
def resp (c : BitVec 4) (d : Data) : Option HostResult := some (.response ⟨c, d⟩)

/-! ### WellFormed refuses each ill-formed term (R73: "N <= 32") -/

theorem test_wellFormed_refuses_wBits_33 : (Instr.wBits 33#6 0#32).wellFormed = false := by decide
theorem test_wellFormed_refuses_rBits_63 : (Instr.rBits 63#6).wellFormed = false := by decide
theorem test_wellFormed_refuses_wtInit_33 : (Instr.wtInit .r 33#6 0#32).wellFormed = false := by decide

/-! ### Decoding: one word per constructor, written from R71, R73 and 95_test_vectors.md -/

theorem test_decode_nop : decode 0x0000000000000000#64 = .ok .nop := rfl
theorem test_decode_wInit : decode 0x1000000000000000#64 = .ok .wInit := rfl
/-- W7: `W_BITS 12, 0xABC`; OP 0010, C 0, N 001100, S 0, Z 0, V -/
theorem test_decode_wBits : decode 0b0010000110000000000000000000000000000000000000000000101010111100#64 = .ok (.wBits 12#6 0xABC#32) := rfl
theorem test_decode_wCode : decode 0x3000000000000005#64 = .ok (.wCode 5#32) := rfl
theorem test_decode_wFlush : decode 0x4000000000000000#64 = .ok .wFlush := rfl
theorem test_decode_rStart : decode 0x5000000000000000#64 = .ok .rStart := rfl
theorem test_decode_rBits : decode 0x6400000000000000#64 = .ok (.rBits 32#6) := rfl
theorem test_decode_rCode : decode 0x7000000000000000#64 = .ok .rCode := rfl
/-- T10: `WT_INIT R, 3, 4`; OP 1000, C 1, N 000011, S 0, Z 0, V -/
theorem test_decode_wtInit : decode 0b1000100001100000000000000000000000000000000000000000000000000100#64 = .ok (.wtInit .r 3#6 4#32) := rfl
theorem test_decode_wtStep : decode 0x9800000000000000#64 = .ok (.wtStep .r) := rfl
/-- R153's example: `WT_READ R, EI`; OP 1010, C 1, N 0, S 1 -/
theorem test_decode_wtRead : decode 0b1010100000010000000000000000000000000000000000000000000000000000#64 = .ok (.wtRead .r .ei) := rfl
theorem test_decode_symEnc : decode 0xB00000000000003F#64 = .ok (.symEnc 63#6) := rfl
theorem test_decode_symDec : decode 0xC00000000000FF21#64 = .ok (.symDec 0xFF21#16) := rfl
theorem test_decode_rev16 : decode 0xD000000000001234#64 = .ok (.rev16 0x1234#16) := rfl
theorem test_decode_status_clr : decode 0xE010000000000000#64 = .ok (.status true) := rfl
theorem test_decode_reserved : decode 0xF123456789ABCDEF#64 = .ok (.reserved 0x123456789ABCDEF#60) := rfl

/-- K2, K4 to K7, W22, T12, RD18, A19, A20, V12: the illegal words of the vectors, each refused by name. -/
theorem test_decode_refuses :
    decode 0x0000000000000001#64 = .error .unusedField ∧ decode 0x1000000100000000#64 = .error .reservedBits ∧
    decode 0x3020000000000001#64 = .error .unusedField ∧ decode 0x9010000000000000#64 = .error .unusedField ∧
    decode 0xE800000000000000#64 = .error .unusedField ∧ decode 0x2420000000000000#64 = .error .widthRange ∧
    decode 0x8420000000000000#64 = .error .widthRange ∧ decode 0x6020000000000001#64 = .error .unusedField ∧
    decode 0xB000000000000040#64 = .error .operandRange ∧ decode 0xC000000000010041#64 = .error .operandRange ∧
    decode 0xD000000000010000#64 = .error .operandRange := ⟨rfl, rfl, rfl, rfl, rfl, rfl, rfl, rfl, rfl, rfl, rfl⟩

/-- R77, R78: `W_BITS 2, 2` is 0x2040000000000002 (R79), a pseudo-instruction expands, an operand out of range is refused. -/
theorem test_assemble :
    (AsmLine.wBits 2 2).assemble = some [0x2040000000000002#64] ∧
    (AsmLine.wtStep2 .r).assemble = some [0x9800000000000000#64, 0x9800000000000000#64] ∧
    AsmLine.wEos.assemble = some [0x3000000000000002#64] ∧ (AsmLine.symEnc 64).assemble = none := ⟨rfl, rfl, rfl, rfl⟩

/-- R77's text, with the words of T10, W7 and W22: comment, hexadecimal and decimal numbers; that N = 33 is refused is log
entry 17. -/
theorem test_wordsOfText :
    wordsOfText "WT_INIT R, 3, 4 ; load" = some [0x8860000000000004#64] ∧
    wordsOfText "  W_BITS 12,0xABC" = some [0x2180000000000ABC#64] ∧
    wordsOfText "STATUS.CLR" = some [0xE010000000000000#64] ∧ wordsOfText "; nothing" = some [] ∧
    wordsOfText "W_BITS 33, 0" = none ∧ wordsOfText "W_BITS 1" = none := by decide +kernel

/-! ### A word of the table, presented after reset, is what the next step runs -/

theorem test_withFetchWord_wBits :
    (after (step (State.reset.withFetchWord 64 0x20C0000000000001))).map (fun t => (t.w.out, t.results)) =
      some ([0x67#16], [.response ⟨0#4, 1#32⟩]) := rfl
theorem test_withFetchWord_illegal :
    (after (step (State.reset.withFetchWord 64 0x2420000000000000))).map (fun t => (t.stat, t.results)) =
      some (0x10#32, [.response ⟨5#4, 0#32⟩]) := rfl

/-! ### One command on a small state -/

/-- K1 -/
theorem test_nop : answer (exec .nop base) = resp 0 0 := by decide +kernel
/-- W19 -/
theorem test_wInit : (after (exec .wInit { base with w := ⟨1#6, 1#3, [0x67]⟩ })).map (·.w) = some ⟨0#6, 0#3, []⟩ := by decide +kernel
/-- W7 -/
theorem test_wBits : (after (exec (.wBits 12 0xABC) base)).map (fun t => (t.w, t.results)) =
    some (⟨0#6, 0#3, [0x50, 0x56]⟩, [.response ⟨0#4, 2#32⟩]) := by decide +kernel
/-- W11, second command: 32 bits on top of 4 emit 6 symbols -/
theorem test_wBits_straddles : (after (exec (.wBits 32 0) { base with w := ⟨0b1111#6, 4#3, []⟩ })).map (·.w) =
    some ⟨0#6, 0#3, [0x38, 0x41, 0x41, 0x41, 0x41, 0x41]⟩ := by decide +kernel
/-- W21 -/
theorem test_wCode : (after (exec (.wCode 5) { base with wtW := ⟨3#6, 4#32⟩ })).map (fun t => (t.w.acc, t.w.pos)) =
    some (0b101#6, 3#3) := by decide +kernel
/-- W20 -/
theorem test_wCode_width_zero : (after (exec (.wCode 5) base)).map (·.w) = some base.w := by decide +kernel
/-- W14 -/
theorem test_wFlush : (after (exec .wFlush { base with w := ⟨0b11111#6, 5#3, []⟩ })).map (·.w) = some ⟨0#6, 0#3, [0x2B]⟩ := by decide +kernel
/-- W16, last command: OUT is full -/
theorem test_wFlush_overflow :
    (after (exec .wFlush { fresh 2 .emitNone with w := ⟨0b10000#6, 5#3, [0x2D, 0x2D]⟩ })).map (fun t => (t.w.out, t.stat, t.results)) =
      some ([0x2D, 0x2D], 0xA04#32, [.response ⟨3#4, 1#32⟩]) := by decide +kernel
/-- RD5: "AB=C" -/
theorem test_rStart_invalid : (after (exec .rStart (loaded [0x41, 0x42, 0x3D, 0x43]))).map (fun t => (t.r.act, t.stat, t.results)) =
    some (false, 1#32, [.response ⟨1#4, 2#32⟩]) := by decide +kernel
/-- P4 step 2: "Etqg" -/
theorem test_rStart : answer (exec .rStart (loaded [0x45, 0x74, 0x71, 0x67])) = resp 0 4 := by decide +kernel
/-- RD7: "HmosSA" -/
theorem test_rBits : (after (exec (.rBits 32) (opened [0x48, 0x6D, 0x6F, 0x73, 0x53, 0x41]))).map (fun t => (t.r.idx, t.r.rem, t.results)) =
    some (6, 4#3, [.response ⟨0#4, 0x12345678#32⟩]) := by decide +kernel
/-- RD3 -/
theorem test_rBits_truncated : (after (exec (.rBits 7) (opened [0x51]))).map (fun t => (t.r.idx, t.stat, t.results)) =
    some (0, 0x102#32, [.response ⟨2#4, 6#32⟩]) := by decide +kernel
/-- RD14: "o" -/
theorem test_rCode : (after (exec .rCode { opened [0x6F] with wtR := ⟨3#6, 4#32⟩ })).map (fun t => (t.r.rem, t.results)) =
    some (3#3, [.response ⟨0#4, 5#32⟩]) := by decide +kernel
/-- RD11 -/
theorem test_rCode_notActive : answer (exec .rCode base) = resp 6 0 := by decide +kernel
/-- T1 -/
theorem test_wtInit : (after (exec (.wtInit .w 2 2) base)).map (fun t => (t.wtW, t.wtR)) = some (⟨2#6, 2#32⟩, ⟨0#6, 0#32⟩) := by decide +kernel
/-- T3 -/
theorem test_wtStep_grows : (after (exec (.wtStep .w) { base with wtW := ⟨2#6, 0#32⟩ })).map (·.wtW) = some ⟨3#6, 7#32⟩ := by decide +kernel
/-- T7 -/
theorem test_wtStep_overflow : (after (exec (.wtStep .w) { base with wtW := ⟨32#6, 0#32⟩ })).map (fun t => (t.wtW, t.stat, t.results)) =
    some (⟨32#6, 0#32⟩, 8#32, [.response ⟨4#4, 32#32⟩]) := by decide +kernel
/-- T10 -/
theorem test_wtRead : answer (exec (.wtRead .r .ei) { base with wtR := ⟨3#6, 4#32⟩ }) = resp 0 4 := by decide +kernel
/-- T11 -/
theorem test_wtRead_other : answer (exec (.wtRead .w .nb) { base with wtR := ⟨3#6, 4#32⟩ }) = resp 0 0 := by decide +kernel
/-- A5 -/
theorem test_symEnc : answer (exec (.symEnc 52) base) = resp 0 0x30 := by decide +kernel
/-- A22 -/
theorem test_symDec : answer (exec (.symDec 0x67) base) = resp 0 32 := by decide +kernel
/-- A15: the high byte is part of the unit -/
theorem test_symDec_invalid : answer (exec (.symDec 0x141) base) = resp 1 0x141 := by decide +kernel
/-- V11 -/
theorem test_rev16 : answer (exec (.rev16 0x20AC) base) = resp 0 0x3504 := by decide +kernel
/-- R171's example -/
theorem test_status_clr : (after (exec (.status true) { opened [0x51] with sticky := 2#6 })).map (fun t => (t.stat, t.results)) =
    some (0x100#32, [.response ⟨0#4, 0x102#32⟩]) := by decide +kernel
/-- P4's end: TRUNC, RACT, RREM = 1 -/
theorem test_status : answer (exec (.status false) { opened [0x51] with
    sticky := 2#6, r := { (opened [0x51]).r with rem := 1#3 } }) = resp 0 0x1102 := by decide +kernel
/-- K3 -/
theorem test_reserved : answer (exec (.reserved 0) base) = resp 5 0 := by decide +kernel

/-- R60 (W17): draining takes from the front. -/
theorem test_drain : (after (step (pend { base with w := ⟨0#6, 0#3, [0x2D, 0x67]⟩ } (.drainOut 1)))).map (fun t => (t.w.out, t.results)) =
    some ([0x67], [.drained [0x2D]]) := by decide +kernel
/-- R59: loading ends the session. -/
theorem test_load : (after (step (pend (opened [0x51]) (.loadIn [0x41, 0x42])))).map (fun t => (t.r.loaded, t.r.act)) =
    some ([0x41, 0x42], false) := by decide +kernel
/-- R61: RESET keeps what is the host's. -/
theorem test_reset_action : (after (step { opened [0x51] with sticky := 5#6, pending := [.reset, .drainOut 0] })).map
    (fun t => (t.stat, t.r.len, t.pending)) = some (0#32, 0, [.drainOut 0]) := by decide +kernel

/-! ### Witnesses: each statement's hypotheses are met, clause by clause, at a boundary where there is one -/

/-- `Writer.Ok` as a check on lists, which evaluates where a quantifier over all code units would not. -/
def writerCheck (w : Writer) : Bool :=
  decide (w.pos.toNat ≤ 5 ∧ w.acc.toNat < 2 ^ w.pos.toNat) && w.out.all isAlphabet

theorem writer_ok {w : Writer} (h : writerCheck w = true) : w.Ok := by
  simp only [writerCheck, Bool.and_eq_true, decide_eq_true_eq, List.all_eq_true] at h
  exact ⟨h.1.1, h.1.2, h.2⟩

/-- `Reader.Ok` as such a check. -/
def readerCheck (cap : Nat) (r : Reader) : Bool :=
  decide (r.buf.length = cap ∧ r.len ≤ cap ∧ r.idx ≤ r.len ∧ r.rem.toNat ≤ 6 ∧ (r.idx = 0 → r.rem = 0#3) ∧
    (r.act = false → r.idx = 0 ∧ r.rem = 0#3 ∧ r.cur = 0#6) ∧ (r.act = true → 0 < r.len) ∧
    (0 < r.idx → (r.buf[r.idx - 1]?).bind valueFor = some r.cur)) && (!r.act || r.loaded.all isAlphabet)

theorem reader_ok {cap : Nat} {r : Reader} (h : readerCheck cap r = true) : r.Ok cap := by
  simp only [readerCheck, Bool.and_eq_true, Bool.or_eq_true, Bool.not_eq_true', decide_eq_true_eq, List.all_eq_true] at h
  obtain ⟨⟨h1, h2, h3, h4, h5, h6, h7, h8⟩, h9⟩ := h
  exact ⟨h1, h2, h3, h4, h5, h6, fun ha => ⟨h7 ha, h9.resolve_left (by simp [ha])⟩, h8⟩

/-- `State.Inv` as such a check. -/
def invCheck (s : State) : Bool :=
  decide (s.cfg.Legal ∧ s.w.out.length ≤ s.cfg.outCap ∧ s.wtW.Ok ∧ s.wtR.Ok) && writerCheck s.w && readerCheck s.cfg.inCap s.r

theorem inv_of_check {s : State} (h : invCheck s = true) : s.Inv := by
  simp only [invCheck, Bool.and_eq_true, decide_eq_true_eq] at h
  exact ⟨h.1.1.1, writer_ok h.1.2, h.1.1.2.1, reader_ok h.2, h.1.1.2.2⟩

theorem witness_base_inv : base.Inv := inv_of_check (by decide +kernel)
theorem witness_opened_inv : (opened [0x51, 0x2D]).Inv := inv_of_check (by decide +kernel)

theorem witness_DecodeOfEncodeIsTheCommand : (Instr.wBits 32#6 0#32).wellFormed = true := by decide +kernel
theorem witness_EncodeOfDecodeIsTheWord : ∃ i, decode 0x6400000000000000#64 = .ok i := ⟨_, rfl⟩
theorem witness_LegalWordsAreTheTableRows_accepts : ∃ r ∈ legalRows, r.accepts 0x2400000000000000#64 :=
  ⟨⟨"W_BITS", 0x2000000000000000, 0xF81FFFFF00000000, true⟩, by decide +kernel, by decide +kernel⟩
theorem witness_LegalWordsAreTheTableRows_none : ∀ r ∈ legalRows, ¬ r.accepts 0x2420000000000000#64 := by decide +kernel
theorem witness_IllegalList_illegal : illegalByList 0x2420000000000000#64 := by simp [illegalByList]
theorem witness_IllegalList_legal : ¬ illegalByList 0x2400000000000000#64 := by simp [illegalByList]
theorem witness_StepRunsTheDecodedCommand :
    (pend base (.issue 0#64)).pending = .issue 0#64 :: [] ∧ decode 0#64 = .ok .nop := ⟨rfl, rfl⟩
theorem witness_AssembledLines : ∃ is, (AsmLine.wBits 32 0xFFFFFFFF).toInstrs = some is := ⟨_, rfl⟩

theorem witness_LoadIn_fits : (List.replicate 8 0x41#16).length ≤ base.cfg.inCap ∧ base.r.buf.length = base.cfg.inCap := by
  decide +kernel
theorem witness_LoadIn_tooLong : base.cfg.inCap < (List.replicate 9 0x41#16).length := by decide +kernel
/-- One symbol in OUT. -/
def oneOut : State := { base with w := ⟨0#6, 0#3, [0x67]⟩ }
theorem witness_DrainOut : 1 ≤ oneOut.w.out.length ∧ oneOut.w.out.length < 2 := by decide +kernel
theorem witness_IdleBlockHoldsItsState : base.pending = [] := by decide +kernel
theorem witness_step_goes_on : ∃ t, step (pend base (.issue 0#64)) = .next t := ⟨_, rfl⟩

theorem witness_SymbolFor_ranges : (25#6).toNat ≤ 25 ∧ (26 ≤ (26#6).toNat ∧ (26#6).toNat ≤ 51) ∧ (26 ≤ (51#6).toNat ∧ (51#6).toNat ≤ 51) ∧
    (52 ≤ (52#6).toNat ∧ (52#6).toNat ≤ 61) ∧ (52 ≤ (61#6).toNat ∧ (61#6).toNat ≤ 61) ∧ (62#6).toNat = 62 ∧ (63#6).toNat = 63 := by decide +kernel
theorem witness_SymDec : symbolFor 63#6 = 0x2D#16 ∧ ∀ v : SymVal, symbolFor v ≠ 0x3D#16 := by decide +kernel

/-- Five bits held and room for one symbol. -/
def oneFree : State := { fresh 2 .zeroSymbol with w := ⟨0b10000#6, 5#3, [0x2D]⟩, wtW := ⟨1#6, 0#32⟩ }
/-- Five bits held and no room. -/
def noRoom : State := { fresh 2 .zeroSymbol with w := ⟨0b10000#6, 5#3, [0x2D, 0x2D]⟩, wtW := ⟨1#6, 0#32⟩ }
theorem witness_Writes_fit : (Instr.wBits 1#6 1#32 = .wBits 1#6 1#32 ∨ (Instr.wBits 1#6 1#32 = .wCode 1#32 ∧ 1#6 = oneFree.wtW.nb)) ∧
    oneFree.w.Ok ∧ oneFree.w.out.length + (oneFree.w.pos.toNat + (1#6).toNat) / 6 ≤ oneFree.cfg.outCap :=
  ⟨.inl rfl, writer_ok (by decide +kernel), by decide +kernel⟩
theorem witness_Writes_fit_wCode : (Instr.wCode 1#32 = .wCode 1#32 ∧ 1#6 = oneFree.wtW.nb) ∧ oneFree.w.Ok ∧
    oneFree.w.out.length + (oneFree.w.pos.toNat + (1#6).toNat) / 6 ≤ oneFree.cfg.outCap := ⟨⟨rfl, rfl⟩, writer_ok (by decide +kernel), by decide +kernel⟩
theorem witness_Writes_overflow : (Instr.wCode 1#32 = .wCode 1#32 ∧ 1#6 = noRoom.wtW.nb) ∧
    noRoom.cfg.outCap < noRoom.w.out.length + (noRoom.w.pos.toNat + (1#6).toNat) / 6 := by decide +kernel
theorem witness_Flush_pads : oneFree.w.Ok ∧ oneFree.w.pos ≠ 0#3 ∧ oneFree.w.out.length + 1 ≤ oneFree.cfg.outCap :=
  ⟨writer_ok (by decide +kernel), by decide +kernel, by decide +kernel⟩
theorem witness_Flush_none : base.w.Ok ∧ base.w.pos = 0#3 ∧ base.cfg.flushEmpty = .emitNone := ⟨writer_ok (by decide +kernel), rfl, rfl⟩
theorem witness_Flush_zero : (fresh 1 .zeroSymbol).w.Ok ∧ (fresh 1 .zeroSymbol).w.pos = 0#3 ∧
    (fresh 1 .zeroSymbol).cfg.flushEmpty = .zeroSymbol ∧ (fresh 1 .zeroSymbol).w.out.length + 1 ≤ (fresh 1 .zeroSymbol).cfg.outCap :=
  ⟨writer_ok (by decide +kernel), rfl, rfl, by decide +kernel⟩
theorem witness_Flush_overflow : noRoom.w.Ok ∧ (noRoom.w.pos ≠ 0#3 ∨ noRoom.cfg.flushEmpty = .zeroSymbol) ∧
    noRoom.cfg.outCap < noRoom.w.out.length + 1 := ⟨writer_ok (by decide +kernel), .inr rfl, by decide +kernel⟩
theorem witness_WriteSequences : base.w = ⟨0#6, 0#3, []⟩ ∧ (∀ i ∈ [Instr.wBits 7#6 1#32, .wCode 5#32], isWrite i = true) ∧
    ([Instr.wBits 7#6 1#32, .wCode 5#32].flatMap (writtenBits base.wtW.nb)).length / 6 ≤ base.cfg.outCap ∧
    ([Instr.wBits 7#6 1#32, .wCode 5#32].flatMap (writtenBits base.wtW.nb)).length % 6 ≠ 0 ∧
    (([Instr.wBits 7#6 1#32, .wCode 5#32].flatMap (writtenBits base.wtW.nb)).length + 5) / 6 ≤ base.cfg.outCap := by decide +kernel
theorem witness_WriterRaisesOnlyOverflow : isWrite (.wCode 0#32) = true ∨ Instr.wCode 0#32 = .wFlush := by decide +kernel

theorem witness_RStart_empty : base.r.len = 0 := by decide +kernel
theorem witness_RStart_invalid : 1 < (loaded [0x41, 0x2F]).r.len ∧ (loaded [0x41, 0x2F]).r.buf[1]? = some 0x2F#16 ∧ isAlphabet 0x2F#16 = false ∧
    ∀ k, k < 1 → ∃ u', (loaded [0x41, 0x2F]).r.buf[k]? = some u' ∧ isAlphabet u' = true :=
  ⟨by decide +kernel, by decide +kernel, by decide +kernel, fun k hk => ⟨0x41#16, Nat.lt_one_iff.mp hk ▸ rfl, by decide +kernel⟩⟩
theorem witness_RStart_valid : 0 < (loaded [0x41]).r.len ∧ ∀ k, k < (loaded [0x41]).r.len →
    ∃ u, (loaded [0x41]).r.buf[k]? = some u ∧ isAlphabet u = true :=
  ⟨by decide +kernel, fun k hk => ⟨0x41#16, Nat.lt_one_iff.mp hk ▸ rfl, by decide +kernel⟩⟩
/-- A session with 6 bits left and the reader's width 6. -/
def sixLeft : State := { opened [0x51] with wtR := ⟨6#6, 0#32⟩ }
theorem witness_Reads_deliver : (Instr.rCode = .rCode ∧ 6#6 = sixLeft.wtR.nb) ∧ (6#6).toNat ≤ 32 ∧ sixLeft.r.Ok sixLeft.cfg.inCap ∧
    sixLeft.r.act = true ∧ (6#6).toNat ≤ sixLeft.r.rem.toNat + 6 * (sixLeft.r.len - sixLeft.r.idx) :=
  ⟨⟨rfl, rfl⟩, by decide +kernel, reader_ok (by decide +kernel), rfl, by decide +kernel⟩
theorem witness_Reads_deliver_none : Instr.rBits 0#6 = .rBits 0#6 ∧ (0#6).toNat ≤ sixLeft.r.rem.toNat + 6 * (sixLeft.r.len - sixLeft.r.idx) := by decide +kernel
theorem witness_Reads_notActive : ((∃ n, Instr.rBits 0#6 = .rBits n) ∨ Instr.rBits 0#6 = .rCode) ∧ base.r.act = false := ⟨.inl ⟨_, rfl⟩, rfl⟩
theorem witness_Reads_truncated : Instr.rBits 7#6 = .rBits 7#6 ∧ sixLeft.r.act = true ∧
    sixLeft.r.rem.toNat + 6 * (sixLeft.r.len - sixLeft.r.idx) < (7#6).toNat := by decide +kernel
theorem witness_AvailCountsTheUnreadBits : (sixLeft.r.Ok sixLeft.cfg.inCap ∧ sixLeft.r.act = true) ∧
    (∃ t, exec .rStart (loaded [0x51]) = .next t ∧ t.r.act = true) ∧
    ∃ t, exec .rCode sixLeft = .next t ∧ t.results = sixLeft.results ++ [.response ⟨0#4, 2#32⟩] :=
  ⟨⟨reader_ok (by decide +kernel), rfl⟩, ⟨_, rfl, rfl⟩, _, rfl, rfl⟩
theorem witness_SessionsEnd : ∃ t, step (pend sixLeft (.loadIn [])) = .next t ∧ sixLeft.r.act = true ∧ t.r.act = false := ⟨_, rfl, rfl, rfl⟩
theorem witness_SessionsOpen : ∃ t, step (pend (loaded [0x51]) (.issue 0x5000000000000000#64)) = .next t ∧
    (loaded [0x51]).r.act = false ∧ t.r.act = true := ⟨_, rfl, rfl, rfl⟩
/-- K1 and K2: the one legal NOP word, and one of its neighbours. -/
theorem witness_IssuedWords : (Fields.ofWord 0#64).op = 0x0 ∧ (Fields.ofWord 0#64).v = 0#32 ∧ (Fields.ofWord 1#64).op = 0x0 ∧
    (Fields.ofWord 1#64).v ≠ 0#32 := by decide +kernel

theorem witness_WtStep : ({ base with wtW := ⟨2#6, 1#32⟩ } : State).wtW.ei ≠ 0#32 ∧ base.wtW.ei = 0#32 ∧ base.wtW.nb.toNat < 32 ∧
    ({ base with wtW := ⟨31#6, 0#32⟩ } : State).wtW.nb.toNat < 32 ∧ ({ base with wtW := ⟨32#6, 0#32⟩ } : State).wtW = ⟨32#6, 0#32⟩ := by decide +kernel
/-- R155's example (2, 2): steps 2, 3, 10 and 11; and the last width, 32, from (31, 0). -/
theorem witness_WidthSchedule :
    (2 ≤ 31 ∧ 2 ≤ (2#32).toNat) ∧
    (2 + 1 ≤ 32 ∧ 2 + 1 + ((List.range (1 - 1)).map fun m => 2 ^ (2 + 1 + m)).sum ≤ 3 ∧
      10 < 2 + 1 + ((List.range (2 - 1)).map fun m => 2 ^ (2 + 1 + m)).sum) ∧
    (2 + 2 ≤ 32 ∧ 2 + 1 + ((List.range (2 - 1)).map fun m => 2 ^ (2 + 1 + m)).sum ≤ 11) ∧
    (31 ≤ 31 ∧ 31 + 1 ≤ 32 ∧ 0 + 1 + ((List.range (1 - 1)).map fun m => 2 ^ (31 + 1 + m)).sum ≤ 1 ∧
      1 < 0 + 1 + ((List.range (2 - 1)).map fun m => 2 ^ (31 + 1 + m)).sum) := by decide +kernel

theorem witness_EveryStepKeepsTheInvariant : (pend base (.issue 0#64)).Inv ∧ ∃ t, step (pend base (.issue 0#64)) = .next t :=
  ⟨inv_of_check (by decide +kernel), _, rfl⟩
theorem witness_PowerOn_legal : (⟨1, 1, .zeroSymbol⟩ : Config).Legal := by decide +kernel
theorem witness_EveryActionWithAMove : oneOut.Inv ∧ (pend oneOut (.drainOut 1)).CanPerform (.drainOut 1) ∧
    (pend base (.loadIn (List.replicate 8 0#16))).CanPerform (.loadIn (List.replicate 8 0#16)) :=
  ⟨inv_of_check (by decide +kernel), Nat.le_refl 1, Nat.le_refl 8⟩
theorem witness_ErrorsArePrecise : ∃ t, issue 0x5000000000000000#64 (opened [0x51, 0x3D]) = .next t ∧
    t.results = (opened [0x51, 0x3D]).results ++ [.response ⟨1#4, 1#32⟩] ∧ (1#4) ≠ 0#4 := ⟨_, rfl, rfl, by decide +kernel⟩
theorem witness_Sticky_cleared : ∃ t, step (pend { base with sticky := 1#6 } (.issue 0xE010000000000000#64)) = .next t ∧
    (1#6).getLsbD 0 = true ∧ t.sticky.getLsbD 0 = false := ⟨_, rfl, rfl, rfl⟩
theorem witness_Sticky_success : ∃ t, exec .nop base = .next t ∧ t.results = base.results ++ [.response ⟨0#4, 0#32⟩] ∧
    Instr.nop ≠ .status true := ⟨_, rfl, rfl, by decide +kernel⟩
theorem witness_CommandsMoveAtMostSix : base.Inv ∧ (Instr.wBits 32#6 0#32).wellFormed = true ∧ ∃ t, exec (.wBits 32#6 0#32) base = .next t :=
  ⟨witness_base_inv, by decide +kernel, _, rfl⟩
theorem witness_InputBuffer : (∃ t, step (pend base (.issue 0#64)) = .next t) ∧ (∀ us rest, (pend base (.issue 0#64)).pending ≠ .loadIn us :: rest) ∧
    (∀ rest, (pend base (.issue 0#64)).pending ≠ .reset :: rest) := ⟨⟨_, rfl⟩, by simp [pend], by simp [pend]⟩
theorem witness_Trackers : ∃ t, step (pend base (.issue 0x9000000000000000#64)) = .next t ∧ t.tracker .w ≠ base.tracker .w :=
  ⟨_, rfl, by decide +kernel⟩
theorem witness_UnloadedCells : (loaded [0x41]).Inv ∧ SameLiveCells (loaded [0x41])
    { loaded [0x41] with r := { (loaded [0x41]).r with buf := 0x41#16 :: List.replicate 7 0x3D#16 } } ∧
    ∃ t, step (loaded [0x41]) = .next t :=
  ⟨inv_of_check (by decide +kernel), ⟨rfl, by decide +kernel, fun j hj => Nat.lt_one_iff.mp hj ▸ rfl⟩, _, rfl⟩
theorem witness_Channels_writer : base.cfg = sixLeft.cfg ∧ writerSide .wInit = true ∧ base.w = sixLeft.w ∧ base.wtW = sixLeft.wtW ∧
    ∃ t, exec .wInit base = .next t := ⟨rfl, rfl, rfl, rfl, _, rfl⟩
theorem witness_Channels_reader : base.cfg = oneOut.cfg ∧ readerSide .rStart = true ∧ base.r = oneOut.r ∧ base.wtR = oneOut.wtR ∧
    ∃ t, exec .rStart base = .next t := ⟨rfl, rfl, rfl, rfl, _, rfl⟩
theorem witness_Pure : ∃ t, exec (.symDec 0x2D#16) base = .next t ∧ t.results = base.results ++ [.response ⟨0#4, 63#32⟩] := ⟨_, rfl, rfl⟩
theorem witness_Retry : ∃ t, exec .wFlush noRoom = .next t ∧ t.results = noRoom.results ++ [.response ⟨3#4, 1#32⟩] ∧
    1 ≤ noRoom.w.out.length := ⟨_, rfl, rfl, by decide +kernel⟩
theorem witness_WrittenCodesReadBack : base.Inv ∧ (∀ c ∈ [((32#6, 0xABC#32) : BitVec 6 × Data), (0#6, 5#32)], c.1.toNat ≤ 32) ∧
    1 ≤ ([((32#6, 0xABC#32) : BitVec 6 × Data), (0#6, 5#32)].map fun c => c.1.toNat).sum ∧ 6 ≤ base.cfg.outCap ∧ 6 ≤ base.cfg.inCap :=
  ⟨witness_base_inv, by simp, by decide +kernel, by decide +kernel, by decide +kernel⟩

end Sys2Proof.Tests
end

/-! Host port: what DRAIN_OUT and RESET do (20_memory.md R60, R61; 10_state.md R31). -/

namespace Sys2Proof.Machine

/-! ### DRAIN_OUT -/

/-- R60: a drain of no more than OUT holds hands over the front of OUT and keeps the rest. -/
theorem drainOut_of_le {k : Nat} {s : State} (h : k ≤ s.w.out.length) :
    drainOut k s =
      .next ({ s with w := { s.w with out := s.w.out.drop k } }.deliver (.drained (s.w.out.take k))) :=
  if_neg (Nat.not_lt.mpr h)

/-- R60: a drain of more than OUT holds is refused. -/
theorem drainOut_of_lt {k : Nat} {s : State} (h : s.w.out.length < k) :
    drainOut k s = .refused .drainTooLong :=
  if_pos h

/-- Settles O9: the units handed over are the first `k` of OUT, the units kept are the others. -/
theorem drainOutReturnsTheFront : Obligations.DrainOutReturnsTheFront := by
  intro s k
  constructor
  · intro hk
    have hsplit : s.w.out = s.w.out.take k ++ s.w.out.drop k := (List.take_append_drop k s.w.out).symm
    exact ⟨s.w.out.take k, s.w.out.drop k, hsplit, List.length_take_of_le hk, drainOut_of_le hk⟩
  · rintro hk ⟨t, ht⟩
    have hrefused : perform (.drainOut k) s = .refused .drainTooLong := drainOut_of_lt hk
    rw [hrefused] at ht
    cases ht

/-! ### RESET -/

/-- R31: IN has its `P_IN_CAP` cells after every reset, whatever they hold. -/
@[simp] theorem freeCells_length (cfg : Config) (epoch : Nat) : (freeCells cfg epoch).length = cfg.inCap := by
  simp [freeCells]

/-- R29: STAT reads zero when each of its fields is clear. -/
theorem State.stat_eq_zero {s : State} (hrem : s.r.rem = 0#3) (hpos : s.w.pos = 0#3) (hact : s.r.act = false)
    (hsticky : s.sticky = 0#6) : s.stat = 0#32 := by
  simp [State.stat, hrem, hpos, hact, hsticky]

/-- R61: a reset is a power-on with the same parameters; the host's actions to come and its results stay. -/
theorem perform_reset (s : State) :
    perform .reset s = .next { State.powerOn s.cfg s.freeCtr with pending := s.pending, results := s.results } := rfl

/-- Settles O10: every field is read off the power-on state, the cells of IN are counted and STAT follows from its
fields. -/
theorem resetRestoresTheResetTable : Obligations.ResetRestoresTheResetTable := by
  intro s
  exact ⟨_, perform_reset s, rfl, rfl, rfl, freeCells_length s.cfg s.freeCtr, rfl, rfl, rfl, rfl, rfl, rfl, rfl, rfl,
    State.stat_eq_zero rfl rfl rfl rfl⟩

end Sys2Proof.Machine

/-! Encoding: the table of legal words and the list of illegal ones (30_encoding.md R73, R76). The decoder, the table and
the list all say of a word that its fields are `Fields.Legal`; the statements follow from these three comparisons. -/

namespace Sys2Proof

/-! ### The fields of a legal word -/

/-- What R76 leaves legal, after R72's column "uses": OP is not the reserved one, Z and every field the command does not
use are zero, the width is in range and V holds nothing above the operand. -/
def Fields.Legal (f : Fields) : Prop :=
  f.op.toNat ≠ 0xF ∧
  f.z = 0#20 ∧
  (f.op.toNat ∉ [0x8, 0x9, 0xA] → f.c = 0#1) ∧
  (f.op.toNat ∉ [0x2, 0x6, 0x8] → f.n = 0#6) ∧
  (f.op.toNat ∉ [0xA, 0xE] → f.s = 0#1) ∧
  (f.op.toNat ∉ [0x2, 0x3, 0x8, 0xB, 0xC, 0xD] → f.v = 0#32) ∧
  (f.op.toNat ∈ [0x2, 0x6, 0x8] → f.n.toNat ≤ 32) ∧
  (f.op.toNat = 0xB → f.v.extractLsb' 6 26 = 0#26) ∧
  (f.op.toNat ∈ [0xC, 0xD] → f.v.extractLsb' 16 16 = 0#16)

/-- R76: the words that are not on the list are those with legal fields. -/
theorem not_illegalByList_iff_legal (w : CmdWord) : ¬ Machine.illegalByList w ↔ (Fields.ofWord w).Legal := by
  simp only [Machine.illegalByList, Fields.Legal, Fields.ofWord, not_or, not_and, not_not, ne_eq, not_le, Nat.lt_succ_iff]

/-! ### The decoder and the legal fields -/

/-- Legal fields decode, whatever their opcode. -/
theorem decodeFields_of_legal {f : Fields} (low : BitVec 60) (h : f.Legal) : ∃ i, decodeFields f low = .ok i := by
  obtain ⟨⟨op⟩, c, n, s, z, v⟩ := f
  fin_cases op <;> simp_all [decodeFields, accept_eq_ok, Fields.Legal]

/-- Fields that decode are those of the reserved opcode, or legal ones, whose command is the one of the table's row at
their opcode. -/
theorem decodeFields_ok_cases {f : Fields} {low : BitVec 60} {i : Instr} (h : decodeFields f low = .ok i) :
    (f.op.toNat = 0xF ∧ i = .reserved low) ∨
    f.Legal ∧ ∃ r, legalRows[f.op.toNat]? = some r ∧ i.mnemonic = r.mnemonic := by
  obtain ⟨⟨op⟩, c, n, s, z, v⟩ := f
  fin_cases op
  -- the reserved opcode, the last of the sixteen
  on_goal 16 =>
    cases h
    exact .inl ⟨rfl, rfl⟩
  all_goals
    obtain ⟨hz, hunused, hrange, rfl⟩ := accept_eq_ok.1 h
    exact .inr ⟨by simp_all [Fields.Legal], _, rfl, rfl⟩

/-! ### The table and the legal fields -/

/-- The bits of `v` from `k` up are zero exactly when the mask of those bits gives zero. -/
theorem and_highMask_eq_zero_iff {m : Nat} (v : BitVec m) (k : Nat) :
    v &&& (BitVec.allOnes m <<< k) = 0#m ↔ v.extractLsb' k (m - k) = 0#(m - k) := by
  constructor <;> intro h
  · ext i hi
    have hbit := congrArg (·.getLsbD (k + i)) h
    simpa [show k + i < m by omega] using hbit
  · ext i hi
    rcases Nat.lt_or_ge i k with hk | hk
    · simp [hk]
    · have hbit := congrArg (·.getLsbD (i - k)) h
      have hv : v[i] = false := by simpa [show i - k < m - k by omega, hk, hi] using hbit
      simp [hv]

/-- The row of a word's opcode accepts the word exactly when its fields are legal: the row's mask keeps Z and the unused
fields whole, and of V what lies above the operand. -/
theorem accepts_iff_legal {w : CmdWord} {r : LegalRow} (h : legalRows[(Fields.ofWord w).op.toNat]? = some r) :
    r.accepts w ↔ (Fields.ofWord w).Legal := by
  have hwidth : w.extractLsb' 53 6 = (Fields.ofWord w).n := rfl
  rw [LegalRow.accepts, masked_iff, hwidth]
  generalize Fields.ofWord w = f at h ⊢
  obtain ⟨⟨op⟩, c, n, s, z, v⟩ := f
  have hc : c &&& 1#1 = c := BitVec.and_allOnes
  have hn : n &&& 0x3F#6 = n := BitVec.and_allOnes
  have hs : s &&& 1#1 = s := BitVec.and_allOnes
  have hz : z &&& 0xFFFFF#20 = z := BitVec.and_allOnes
  have hv : v &&& 0xFFFFFFFF#32 = v := BitVec.and_allOnes
  have hv6 : v &&& 0xFFFFFFC0#32 = 0#32 ↔ v.extractLsb' 6 26 = 0#26 := and_highMask_eq_zero_iff v 6
  have hv16 : v &&& 0xFFFF0000#32 = 0#32 ↔ v.extractLsb' 16 16 = 0#16 := and_highMask_eq_zero_iff v 16
  fin_cases op <;> cases h
  all_goals
    simp [Fields.mask, Fields.ofWord, Fields.Legal, hc, hn, hs, hz, hv, hv6, hv16, and_assoc, and_left_comm, and_comm]

/-- Every row's mask keeps OP whole, and the table stands in the order of the opcodes. -/
theorem legalRows_op : ∀ r ∈ legalRows,
    (Fields.ofWord r.mask).op = BitVec.allOnes 4 ∧ legalRows[(Fields.ofWord r.match64).op.toNat]? = some r := by
  decide +kernel

/-- A row has a mnemonic of its own, and none has the reserved one's. -/
theorem legalRows_mnemonic : ∀ r ∈ legalRows,
    r.mnemonic ≠ "(reserved)" ∧ ∀ r' ∈ legalRows, r'.mnemonic = r.mnemonic → r' = r := by
  decide +kernel

/-- A row accepts words of its own opcode only. -/
theorem legalRows_getElem?_of_accepts {r : LegalRow} {w : CmdWord} (hr : r ∈ legalRows) (h : r.accepts w) :
    legalRows[(Fields.ofWord w).op.toNat]? = some r := by
  obtain ⟨hmask, hrow⟩ := legalRows_op r hr
  have hop := congrArg Fields.op ((masked_iff w r.mask r.match64).1 h.1)
  rw [Fields.mask, hmask, BitVec.and_allOnes] at hop
  rwa [hop]

/-- R73: no word matches two rows, for each row has an opcode of its own. -/
theorem eq_of_accepts {r r' : LegalRow} {w : CmdWord} (hr : r ∈ legalRows) (hr' : r' ∈ legalRows) (h : r.accepts w)
    (h' : r'.accepts w) : r = r' :=
  Option.some.inj ((legalRows_getElem?_of_accepts hr h).symm.trans (legalRows_getElem?_of_accepts hr' h'))

/-! ### Words -/

/-- A word that decodes is reserved and has no legal fields, or it has them and a row of its command accepts it. -/
theorem decode_ok_cases {w : CmdWord} {i : Instr} (h : decode w = .ok i) :
    (¬ (Fields.ofWord w).Legal ∧ ∃ x, i = .reserved x) ∨
    (Fields.ofWord w).Legal ∧ ∃ r ∈ legalRows, r.accepts w ∧ i.mnemonic = r.mnemonic := by
  rcases decodeFields_ok_cases h with ⟨hop, hi⟩ | ⟨hlegal, r, hrow, hi⟩
  · exact .inl ⟨fun hlegal => hlegal.1 hop, _, hi⟩
  · exact .inr ⟨hlegal, r, List.mem_of_getElem? hrow, (accepts_iff_legal hrow).2 hlegal, hi⟩

/-- A word with legal fields decodes to the command of a row that accepts it. -/
theorem decode_of_legal {w : CmdWord} (h : (Fields.ofWord w).Legal) :
    ∃ i, decode w = .ok i ∧ ∃ r ∈ legalRows, r.accepts w ∧ i.mnemonic = r.mnemonic := by
  obtain ⟨i, hi⟩ := decodeFields_of_legal (w.extractLsb' 0 60) h
  rcases decode_ok_cases hi with ⟨hillegal, -⟩ | ⟨-, hrow⟩
  · exact absurd h hillegal
  · exact ⟨i, hi, hrow⟩

/-- R73: the words that decode to a row's command are those the row accepts. -/
theorem decode_mnemonic_iff_accepts {r : LegalRow} (hr : r ∈ legalRows) (w : CmdWord) :
    (∃ i, decode w = .ok i ∧ i.mnemonic = r.mnemonic) ↔ r.accepts w := by
  constructor
  · rintro ⟨i, hdecode, hname⟩
    obtain ⟨hnotReserved, hunique⟩ := legalRows_mnemonic r hr
    rcases decode_ok_cases hdecode with ⟨-, x, rfl⟩ | ⟨-, r', hr', haccepts, hname'⟩
    · exact absurd hname.symm hnotReserved
    · rwa [← hunique r' hr' (hname'.symm.trans hname)]
  · intro haccepts
    have hlegal := (accepts_iff_legal (legalRows_getElem?_of_accepts hr haccepts)).1 haccepts
    obtain ⟨i, hdecode, r', hr', haccepts', hname⟩ := decode_of_legal hlegal
    exact ⟨i, hdecode, eq_of_accepts hr hr' haccepts haccepts' ▸ hname⟩

/-- The one word of NOP is 0: its row's mask keeps the whole word. -/
theorem decode_eq_nop_iff (w : CmdWord) : decode w = .ok .nop ↔ w = 0#64 := by
  constructor
  · intro h
    obtain ⟨hmatch, -⟩ := (decode_mnemonic_iff_accepts List.mem_cons_self w).1 ⟨.nop, h, rfl⟩
    rwa [show (0xFFFFFFFFFFFFFFFF : CmdWord) = BitVec.allOnes 64 from rfl, BitVec.and_allOnes] at hmatch
  · rintro rfl
    rfl

end Sys2Proof

namespace Sys2Proof.Machine

/-- A word that decodes is executed (R75). -/
theorem issue_of_decode_ok {w : CmdWord} {i : Instr} (h : decode w = .ok i) (s : State) : issue w s = exec i s := by
  rw [issue, h]

/-- R75, R76: a word without legal fields raises IllegalCommand(0), whether the decoder refuses it or reads the reserved
command. -/
theorem issue_of_not_legal {w : CmdWord} (h : ¬ (Fields.ofWord w).Legal) (s : State) :
    issue w s = .next ({ s with sticky := s.sticky ||| 0b010000#6 }.answered 5#4 0#32) := by
  cases hdecode : decode w with
  | error e => rw [issue, hdecode]; rfl
  | ok i =>
    rcases decode_ok_cases hdecode with ⟨-, x, rfl⟩ | ⟨hlegal, -⟩
    · rw [issue_of_decode_ok hdecode]; rfl
    · exact absurd hlegal h

/-- Settles O3: the decoder and the table agree on the fields of a word, and the rows are told apart by their opcodes. -/
theorem legalWordsAreTheTableRows : Obligations.LegalWordsAreTheTableRows := by
  refine ⟨fun r hr w => decode_mnemonic_iff_accepts hr w, fun r hr r' hr' w => eq_of_accepts hr hr', ?_⟩
  intro w hnone s
  refine issue_of_not_legal (fun hlegal => ?_) s
  obtain ⟨i, -, r, hr, haccepts, -⟩ := decode_of_legal hlegal
  exact hnone r hr haccepts

/-- Settles O4: the words off the list are those with legal fields, and each of them decodes to a row's command. -/
theorem illegalListRaisesIllegalCommand : Obligations.IllegalListRaisesIllegalCommand := by
  refine ⟨fun s w => ⟨fun hlisted => ?_, fun hunlisted => ?_⟩, decode_eq_nop_iff⟩
  · exact issue_of_not_legal (fun hlegal => (not_illegalByList_iff_legal w).2 hlegal hlisted) s
  · obtain ⟨i, hdecode, r, hr, -, hname⟩ := decode_of_legal ((not_illegalByList_iff_legal w).1 hunlisted)
    exact ⟨i, hdecode, hname ▸ (legalRows_mnemonic r hr).1, issue_of_decode_ok hdecode s⟩

end Sys2Proof.Machine

/-! Alphabet: the table, SYM_ENC, SYM_DEC and REV16 (40_alphabet.md R90 to R95). -/

namespace Sys2Proof.Machine

/-! ### The table -/

/-- Settles O14: the closed form is compared with each of the 64 entries of the table. -/
theorem symbolForFollowsTheTable : Obligations.SymbolForFollowsTheTable := by
  unfold Obligations.SymbolForFollowsTheTable
  decide

/-- R91: `u` has the value `v` exactly when it is the symbol of `v`. -/
theorem valueFor_eq_some_iff {u : CodeUnit} {v : SymVal} : valueFor u = some v ↔ symbolFor v = u :=
  ⟨symbolFor_of_valueFor, fun h => h ▸ valueFor_symbolFor v⟩

/-- R91: `u` has no value exactly when it is no symbol. -/
theorem valueFor_eq_none_iff {u : CodeUnit} : valueFor u = none ↔ ∀ v : SymVal, symbolFor v ≠ u :=
  Option.eq_none_iff_forall_ne_some.trans (forall_congr' fun _ => not_congr valueFor_eq_some_iff)

/-- Settles O15: each direction of the inverse is a lemma about one unit. -/
theorem valueForInvertsSymbolFor : Obligations.ValueForInvertsSymbolFor :=
  fun _ => ⟨fun _ => valueFor_eq_some_iff, valueFor_eq_none_iff⟩

/-! ### The words of a command whose one operand stands in the low bits of V -/

/-- The bits of `v` from `k` up are zero exactly when its number is below `2 ^ k`. -/
theorem extractLsb'_high_eq_zero_iff {m : Nat} (v : BitVec m) (k : Nat) :
    v.extractLsb' k (m - k) = 0#(m - k) ↔ v.toNat < 2 ^ k := by
  have hhigh : v.toNat / 2 ^ k < 2 ^ (m - k) := by
    rw [Nat.div_lt_iff_lt_mul (Nat.two_pow_pos k), ← Nat.pow_add]
    exact v.isLt.trans_le (Nat.pow_le_pow_right Nat.two_pos (by omega))
  rw [← BitVec.toNat_inj, BitVec.extractLsb'_toNat, Nat.shiftRight_eq_div_pow, Nat.mod_eq_of_lt hhigh,
    BitVec.toNat_zero, Nat.div_eq_zero_iff_lt (Nat.two_pow_pos k)]

/-- R76: where the row of `op` takes a `k`-bit operand from V and no other field, the legal words are those whose other
bits are zero. -/
theorem issuedWords_of_operandRow {op : BitVec 4} {k : Nat} {row : BitVec k → Instr}
    (hrow : ∀ c n s z v low, decodeFields ⟨op, c, n, s, z, v⟩ low =
      accept ⟨op, c, n, s, z, v⟩ (decide (c = 0#1) && decide (n = 0#6) && decide (s = 0#1))
        (decide (v.extractLsb' k (32 - k) = 0#(32 - k))) .operandRange (row (v.extractLsb' 0 k))) :
    IssuedWords op (fun f => f.c = 0#1 ∧ f.n = 0#6 ∧ f.s = 0#1 ∧ f.z = 0#20 ∧ f.v.toNat < 2 ^ k)
      (fun f => row (f.v.setWidth k)) := by
  apply issuedWords_of_decode
  intro c n s z v low
  rw [hrow]
  constructor
  · rintro ⟨hc, hn, hs, hz, hv⟩
    have hoperand : v.extractLsb' 0 k = v.setWidth k := BitVec.eq_of_toNat_eq (by simp)
    exact accept_eq_ok.2 ⟨hz, by simpa using ⟨⟨hc, hn⟩, hs⟩, decide_eq_true ((extractLsb'_high_eq_zero_iff v k).2 hv),
      congrArg row hoperand⟩
  · intro hillegal
    cases haccept : accept ⟨op, c, n, s, z, v⟩ _ _ _ _ with
    | error e => exact ⟨e, rfl⟩
    | ok j =>
      obtain ⟨hz, hunused, hrange, -⟩ := accept_eq_ok.1 haccept
      simp only [Bool.and_eq_true, decide_eq_true_eq] at hunused hrange
      obtain ⟨⟨hc, hn⟩, hs⟩ := hunused
      exact absurd ⟨hc, hn, hs, hz, (extractLsb'_high_eq_zero_iff v k).1 hrange⟩ hillegal

/-! ### SYM_ENC and SYM_DEC -/

/-- R92: SYM_ENC answers the symbol. -/
theorem exec_symEnc (v : SymVal) (s : State) :
    exec (.symEnc v) s = .next (s.answered 0#4 ((symbolFor v).setWidth 32)) := rfl

/-- R93: SYM_DEC of a unit with a value answers the value. -/
theorem exec_symDec_of_some {u : CodeUnit} {v : SymVal} (h : valueFor u = some v) (s : State) :
    exec (.symDec u) s = .next (s.answered 0#4 (v.setWidth 32)) := by
  rw [exec, execSymDec, h]
  rfl

/-- R93: SYM_DEC of a unit without a value raises InvalidInput. -/
theorem exec_symDec_of_none {u : CodeUnit} (h : valueFor u = none) (s : State) :
    exec (.symDec u) s = .next ({ s with sticky := s.sticky ||| 0b000001#6 }.answered 1#4 (u.setWidth 32)) := by
  rw [exec, execSymDec, h]
  rfl

/-- Settles O17: the answer is the command's meaning, the words are those of a 6-bit operand. -/
theorem symEncAnswersTheSymbol : Obligations.SymEncAnswersTheSymbol :=
  ⟨exec_symEnc, issuedWords_of_operandRow fun _ _ _ _ _ _ => rfl⟩

/-- Settles O18: a unit that is a symbol has a value and any other has none, which are the command's two outcomes; the
words are those of a 16-bit operand. -/
theorem symDecAnswersTheValueOrInvalidInput : Obligations.SymDecAnswersTheValueOrInvalidInput := by
  refine ⟨fun u s => ⟨fun v hsymbol => ?_, fun hnone => ?_⟩, issuedWords_of_operandRow fun _ _ _ _ _ _ => rfl⟩
  · exact exec_symDec_of_some (valueFor_eq_some_iff.2 hsymbol) s
  · exact exec_symDec_of_none (valueFor_eq_none_iff.2 hnone) s

/-! ### The bit reversal -/

/-- R95: REV16 answers the reversal. -/
theorem exec_rev16 (x : BitVec 16) (s : State) :
    exec (.rev16 x) s = .next (s.answered 0#4 ((reverseBits16 x).setWidth 32)) := rfl

/-- Settles O19: the low half of the data is the reversal, the high half its zero extension; the words are those of a
16-bit operand. -/
theorem rev16AnswersTheReversedBits : Obligations.Rev16AnswersTheReversedBits := by
  refine ⟨fun x s => ⟨_, exec_rev16 x s, fun i hi => ?_, fun i hi => ?_⟩,
    issuedWords_of_operandRow fun _ _ _ _ _ _ => rfl⟩
  · rw [BitVec.getLsbD_setWidth, reverseBits16_getLsbD x i hi, decide_eq_true (by omega), Bool.true_and]
  · rw [BitVec.getLsbD_setWidth, BitVec.getLsbD_of_ge _ i hi, Bool.and_false]

/-- R94: reversing twice gives the value back. -/
theorem reverseBits16_reverseBits16 (x : BitVec 16) : reverseBits16 (reverseBits16 x) = x := by
  apply BitVec.eq_of_getLsbD_eq
  intro i hi
  rw [reverseBits16_getLsbD _ i hi, reverseBits16_getLsbD x _ (by omega), Nat.sub_sub_self (by omega)]

/-- One swap of R94's network: the bits under `mask` change places with those `d` above them. -/
abbrev swapBits (d : Nat) (mask x : BitVec 16) : BitVec 16 := ((x &&& mask) <<< d) ||| ((x >>> d) &&& mask)

/-- `mask` marks the lower place of every pair at distance `d`, the places of a pair differing in bit `d` alone. -/
def IsSwapMask (d : Nat) (mask : BitVec 16) : Prop :=
  ∀ i < 16,
    (mask.getLsbD i = true ∧ i ^^^ d = d + i ∧ (d ≤ i → mask.getLsbD (i - d) = false)) ∨
    (mask.getLsbD i = false ∧ i ^^^ d = i - d ∧ d ≤ i ∧ mask.getLsbD (i - d) = true)

/-- A swap takes bit `i` from the other place of its pair. -/
theorem swapBits_getLsbD {d : Nat} {mask : BitVec 16} (hmask : IsSwapMask d mask) (x : BitVec 16) {i : Nat} (hi : i < 16) :
    (swapBits d mask x).getLsbD i = x.getLsbD (i ^^^ d) := by
  rw [BitVec.getLsbD_or, BitVec.getLsbD_shiftLeft, BitVec.getLsbD_and, BitVec.getLsbD_and, BitVec.getLsbD_ushiftRight]
  rcases hmask i hi with ⟨hlower, hpair, hbelow⟩ | ⟨hupper, hpair, hle, hbelow⟩
  · rcases Nat.lt_or_ge i d with hlt | hge
    · simp [hlower, hpair, hlt]
    · simp [hlower, hpair, hbelow hge]
  · have hnot : mask[i] = false := hupper
    simp [hnot, hpair, hbelow, hi, Nat.not_lt.2 hle]

/-- The masks of R94 mark the pairs at distances 1, 2, 4 and 8. -/
theorem isSwapMask_of_network :
    IsSwapMask 1 0x5555#16 ∧ IsSwapMask 2 0x3333#16 ∧ IsSwapMask 4 0x0F0F#16 ∧ IsSwapMask 8 0x00FF#16 := by
  refine ⟨?_, ?_, ?_, ?_⟩ <;> (unfold IsSwapMask; decide)

/-- Inverting the four bits of a place turns the order of the 16 places round. -/
theorem xor_distances_eq : ∀ i < 16, i ^^^ 8 ^^^ 4 ^^^ 2 ^^^ 1 = 15 - i := by decide

/-- R94: the four swaps together invert the four bits of every place, which is the reversal. -/
theorem swapNetwork_eq_reverseBits16 (x : BitVec 16) :
    swapBits 8 0x00FF#16 (swapBits 4 0x0F0F#16 (swapBits 2 0x3333#16 (swapBits 1 0x5555#16 x))) = reverseBits16 x := by
  obtain ⟨hswap1, hswap2, hswap4, hswap8⟩ := isSwapMask_of_network
  apply BitVec.eq_of_getLsbD_eq
  intro i hi
  have h8 : i ^^^ 8 < 16 := Nat.xor_lt_two_pow (n := 4) hi (by decide)
  have h4 : i ^^^ 8 ^^^ 4 < 16 := Nat.xor_lt_two_pow (n := 4) h8 (by decide)
  have h2 : i ^^^ 8 ^^^ 4 ^^^ 2 < 16 := Nat.xor_lt_two_pow (n := 4) h4 (by decide)
  rw [swapBits_getLsbD hswap8 _ hi, swapBits_getLsbD hswap4 _ h8, swapBits_getLsbD hswap2 _ h4, swapBits_getLsbD hswap1 _ h2,
    xor_distances_eq i hi, reverseBits16_getLsbD x i hi]

/-- Settles O20: the bits of the reversal, the network of swaps and the involution are lemmas of their own. -/
theorem swapNetworkIsTheReversal : Obligations.SwapNetworkIsTheReversal :=
  fun x => ⟨reverseBits16_getLsbD x, swapNetwork_eq_reverseBits16 x, reverseBits16_reverseBits16 x⟩

end Sys2Proof.Machine

/-! Writer: W_INIT, W_BITS, W_CODE and W_FLUSH (41_writer.md R111 to R114). -/

namespace Sys2Proof.Machine

/-! ### The words of a command -/

/-- R76: where the row of `op` decodes exactly the fields that `legal` describes, and to `i`, those are the words that
carry the command. -/
theorem issuedWords_of_decode_ok_iff {op : BitVec 4} {legal : Fields → Prop} {i : Fields → Instr}
    (hrow : ∀ c n s z v low j, decodeFields ⟨op, c, n, s, z, v⟩ low = .ok j ↔
      legal ⟨op, c, n, s, z, v⟩ ∧ i ⟨op, c, n, s, z, v⟩ = j) : IssuedWords op legal i := by
  apply issuedWords_of_decode
  intro c n s z v low
  constructor
  · intro hlegal
    exact (hrow c n s z v low _).2 ⟨hlegal, rfl⟩
  · intro hillegal
    cases hdecode : decodeFields ⟨op, c, n, s, z, v⟩ low with
    | error e => exact ⟨e, rfl⟩
    | ok j => exact absurd ((hrow c n s z v low j).1 hdecode).1 hillegal

/-! ### W_INIT -/

/-- R111: W_INIT empties the writer. -/
theorem exec_wInit (s : State) :
    exec .wInit s = .next ({ s with w := { acc := 0#6, pos := 0#3, out := [] } }.answered 0#4 0#32) := rfl

/-- Settles O21: the effect is the command's meaning, and its row tests every field below OP for zero. -/
theorem wInitEmptiesTheWriter : Obligations.WInitEmptiesTheWriter :=
  ⟨exec_wInit, issuedWords_of_decode_ok_iff (by simp [decodeFields, accept_eq_ok, and_assoc, and_left_comm])⟩

/-! ### W_BITS and W_CODE -/

/-- R112, R113: both commands write a code, W_BITS at the width of its operand and W_CODE at that of `WT[W]`. -/
theorem exec_eq_writeCode {i : Instr} {n : BitVec 6} {v : Data} {s : State}
    (h : i = .wBits n v ∨ (i = .wCode v ∧ n = s.wtW.nb)) : exec i s = writeCode n.toNat v s := by
  rcases h with rfl | ⟨rfl, rfl⟩
  · rfl
  · rfl

/-- Settles O22: a write that fits is the PutBits of the code's bits, whose effect on the writer is `putBits_spec`; one
that does not fit raises. -/
theorem writesAppendTheCodeOrOverflow : Obligations.WritesAppendTheCodeOrOverflow := by
  refine ⟨fun s i n v hwrite => ⟨fun hok hfits => ?_, fun hfull => ?_⟩, ?_, ?_⟩
  · obtain ⟨hok', hstream, hpos, us, hout, hcount⟩ := putBits_spec (codeBits n.toNat v) s.w hok
    rw [codeBits_length] at hpos hcount
    exact ⟨_, us, (exec_eq_writeCode hwrite).trans (writeCode_fits hfits), hout, hcount, hok', hpos, hstream⟩
  · exact (exec_eq_writeCode hwrite).trans (writeCode_overflows hfull)
  · exact issuedWords_of_decode_ok_iff (by simp [decodeFields, accept_eq_ok, and_assoc, and_left_comm])
  · exact issuedWords_of_decode_ok_iff (by simp [decodeFields, accept_eq_ok, and_assoc, and_left_comm])

/-! ### W_FLUSH -/

/-- R114: with bits held and room, W_FLUSH emits the padded accumulator and empties it. -/
theorem exec_wFlush_of_held {s : State} (hpos : s.w.pos ≠ 0#3) (hroom : s.w.out.length + 1 ≤ s.cfg.outCap) :
    exec .wFlush s = .next
      ({ s with w := { acc := 0#6, pos := 0#3, out := s.w.out ++ [symbolFor s.w.padded] } }.answered 0#4 1#32) := by
  rw [exec, execWFlush, if_neg hpos, flushSymbol, if_neg (Nat.not_lt.2 hroom)]
  rfl

/-- R114: with no bits held, W_FLUSH does nothing under `NONE`. -/
theorem exec_wFlush_emitNone {s : State} (hpos : s.w.pos = 0#3) (hmode : s.cfg.flushEmpty = .emitNone) :
    exec .wFlush s = .next (s.answered 0#4 0#32) := by
  rw [exec, execWFlush, if_pos hpos, hmode]
  rfl

/-- R114: with no bits held and room, W_FLUSH emits the symbol of value 0 under `ZERO_SYMBOL`. -/
theorem exec_wFlush_zeroSymbol {s : State} (hpos : s.w.pos = 0#3) (hmode : s.cfg.flushEmpty = .zeroSymbol)
    (hroom : s.w.out.length + 1 ≤ s.cfg.outCap) :
    exec .wFlush s = .next ({ s with w := s.w.append (symbolFor 0#6) }.answered 0#4 1#32) := by
  rw [exec, execWFlush, if_pos hpos, hmode]
  exact if_neg (Nat.not_lt.2 hroom)

/-- R114: a W_FLUSH that has a symbol to emit and no room for it raises OutputOverflow(1). -/
theorem exec_wFlush_overflows {s : State} (hemits : s.w.pos ≠ 0#3 ∨ s.cfg.flushEmpty = .zeroSymbol)
    (hfull : s.cfg.outCap < s.w.out.length + 1) :
    exec .wFlush s = .next (s.raise .outputOverflow 1#32) := by
  rw [exec, execWFlush]
  by_cases hpos : s.w.pos = 0#3
  · rw [if_pos hpos, hemits.resolve_left (not_not.2 hpos)]
    exact if_pos hfull
  · rw [if_neg hpos]
    exact if_pos hfull

/-- Settles O23: one lemma for each case of the flush; the emitted symbol's bits are those of the padded accumulator. -/
theorem flushPadsWithZeroBits : Obligations.FlushPadsWithZeroBits := by
  refine ⟨fun s hok => ⟨fun hpos hroom => ?_, exec_wFlush_emitNone, exec_wFlush_zeroSymbol, exec_wFlush_overflows⟩,
    ?_⟩
  · exact ⟨symbolFor s.w.padded, exec_wFlush_of_held hpos hroom, isAlphabet_symbolFor _,
      (unitBits_symbolFor _).trans (symbolBits_padded s.w hok)⟩
  · exact issuedWords_of_decode_ok_iff (by simp [decodeFields, accept_eq_ok, and_assoc, and_left_comm])

end Sys2Proof.Machine

/-! Reader: R_BITS, R_CODE and the bits left to them (42_reader.md R130, R133, R134). -/

namespace Sys2Proof.Machine

/-! ### R_BITS and R_CODE -/

/-- R133, R134: both commands read a code, R_BITS at the width of its operand and R_CODE at that of `WT[R]`. -/
theorem exec_eq_readCode {i : Instr} {n : BitVec 6} {s : State} (h : i = .rBits n ∨ (i = .rCode ∧ n = s.wtR.nb)) :
    exec i s = readCode n.toNat s := by
  rcases h with rfl | ⟨rfl, rfl⟩
  · rfl
  · rfl

/-- The data made from a bit list is zero above its bits. -/
theorem valueOfBits_getLsbD_of_length_le {k : Nat} (bs : List Bool) (h : bs.length ≤ k) {j : Nat} (hj : bs.length ≤ j) :
    (BitVec.ofNat k (valueOfBits bs)).getLsbD j = false := by
  rw [valueOfBits_getLsbD bs h, List.getD_eq_default bs false hj]

/-- Settles O27: a read is `readCode`, whose three cases are lemmas of their own; the bits it delivers are the low bits of
the data. -/
theorem readsDeliverTheNextBitsOrRaise : Obligations.ReadsDeliverTheNextBitsOrRaise := by
  refine ⟨fun s i n hread => ⟨fun hclosed => ?_, fun hopen hshort => ?_, fun hopen hok hwidth henough => ?_⟩, ?_, ?_⟩
  · exact (exec_eq_readCode hread).trans (readCode_notActive hclosed)
  · exact (exec_eq_readCode hread).trans (readCode_truncated hopen hshort)
  · obtain ⟨bs, r', hexec, hlength, hstream, hok', hbuf, hlen, hact, -, hzero, hrem⟩ := readCode_delivers hok hopen henough
    have hfits : bs.length ≤ 32 := hlength.trans_le hwidth
    have hn : n.toNat = 0 ↔ n = 0#6 := BitVec.toNat_inj (y := 0#6)
    refine ⟨r', _, (exec_eq_readCode hread).trans hexec, hbuf, hlen, hact, hok', ?_, fun j hj => ?_,
      fun h => hzero (hn.2 h), fun h => hrem (mt hn.1 h)⟩
    · rw [← hlength, map_getLsbD_valueOfBits bs hfits]
      exact hstream
    · exact valueOfBits_getLsbD_of_length_le bs hfits (hlength.trans_le hj)
  · exact issuedWords_of_decode_ok_iff (by simp [decodeFields, accept_eq_ok, and_assoc, and_left_comm])
  · exact issuedWords_of_decode_ok_iff (by simp [decodeFields, accept_eq_ok, and_assoc, and_left_comm])

/-! ### The unread bits -/

/-- R130: in an open session Avail() is the length of the stream, each unread cell having 6 bits. -/
theorem Reader.Ok.stream_length {cap : Nat} {r : Reader} (h : r.Ok cap) (hact : r.act = true) :
    r.stream.length = r.avail := by
  obtain ⟨hbuf, hlen, -, -, -, -, hsession, -⟩ := h
  obtain ⟨-, hvalid⟩ := hsession hact
  have hloaded : r.loaded.length = r.len := List.length_take_of_le (hlen.trans_eq hbuf.symm)
  have hcells : (unitBits (r.loaded.drop r.idx)).length = 6 * (r.len - r.idx) := by
    rw [unitBits_length fun u hu => hvalid u (List.mem_of_mem_drop hu), List.length_drop, hloaded]
  rw [Reader.stream_eq, List.length_append, hcells, List.length_map, List.length_range, Reader.avail]

/-- R130: an R_START that opens a session leaves all `6 * L` bits unread. -/
theorem avail_of_exec_rStart {s t : State} (h : exec .rStart s = .next t) (hact : t.r.act = true) :
    t.r.avail = 6 * s.r.len := by
  rcases exec_cases h with ⟨s1, d, ⟨rfl, -, -⟩, rfl⟩ | ⟨e, d, rfl⟩
  · simp [Reader.avail]
  · -- an R_START that raises has closed the session
    simp [raiseBase] at hact

/-- R181: no error answers with the code of success. -/
theorem Err.code_ne_ok (e : Err) : e.code ≠ 0#4 := by cases e <;> decide

/-- A raise does not answer OK. -/
theorem State.raise_results_ne_ok (s : State) (e : Err) (c d : Data) :
    (s.raise e c).results ≠ s.results ++ [.response ⟨0#4, d⟩] := by
  simp [Err.code_ne_ok]

/-- R130: a read of `n` bits that answers OK lowers Avail() by `n`. -/
theorem avail_of_readCode_ok {n : Nat} {s t : State} {d : Data} (hok : s.r.Ok s.cfg.inCap) (h : readCode n s = .next t)
    (hanswer : t.results = s.results ++ [.response ⟨0#4, d⟩]) : t.r.avail + n = s.r.avail := by
  rcases readCode_cases h with ⟨-, rfl⟩ | ⟨-, -, rfl⟩ | ⟨hact, hn, -⟩
  · exact absurd hanswer (s.raise_results_ne_ok _ _ _)
  · exact absurd hanswer (s.raise_results_ne_ok _ _ _)
  · obtain ⟨bs, r', hread, -, -, -, -, -, -, havail, -, -⟩ := readCode_delivers hok hact hn
    rw [h] at hread
    cases hread
    exact havail

/-- Settles O28: each of R130's three sentences is a lemma of its own. -/
theorem availCountsTheUnreadBits : Obligations.AvailCountsTheUnreadBits :=
  ⟨fun _ _ => Reader.Ok.stream_length, fun _ _ => avail_of_exec_rStart,
    fun _ _ _ _ _ hread hok h => avail_of_readCode_ok hok ((exec_eq_readCode hread).symm.trans h)⟩

end Sys2Proof.Machine

/-! Width trackers: WT_INIT, WT_STEP, WT_READ and the width schedule (43_width.md R150 to R155). -/

namespace Sys2Proof.Machine

/-! ### Step(T) -/

/-- R151: with `ei` not 0 the step counts `ei` down. -/
theorem Tracker.step_countsDown {t : Tracker} (h : t.ei ≠ 0#32) :
    ∃ e, t.step = some (⟨t.nb, e⟩, false) ∧ e.toNat + 1 = t.ei.toNat :=
  ⟨t.ei - 1#32, if_neg h, by bv_omega⟩

/-- R151: with `ei` 0 and `nb` below 32 the step makes the width grow and starts `ei` again. -/
theorem Tracker.step_grows {t : Tracker} (hei : t.ei = 0#32) (hnb : t.nb.toNat < 32) :
    ∃ n e, t.step = some (⟨n, e⟩, true) ∧ n.toNat = t.nb.toNat + 1 ∧ e.toNat = 2 ^ (t.nb.toNat + 1) - 1 := by
  have hne : t.nb ≠ 32#6 := fun h => by simp [h] at hnb
  have hn : (t.nb + 1#6).toNat = t.nb.toNat + 1 := by
    rw [BitVec.toNat_add, BitVec.toNat_ofNat]
    omega
  refine ⟨_, _, (if_pos hei).trans (if_neg hne), hn, ?_⟩
  have hpos := Nat.two_pow_pos (t.nb.toNat + 1)
  have hle : 2 ^ (t.nb.toNat + 1) ≤ 2 ^ 32 := Nat.pow_le_pow_right Nat.two_pos hnb
  rw [hn, BitVec.toNat_ofNat, Nat.mod_eq_of_lt (by omega)]

/-! ### The commands -/

/-- R150: WT_INIT loads the tracker. -/
theorem exec_wtInit (c : Chan) (n : BitVec 6) (e : Data) (s : State) :
    exec (.wtInit c n e) s = .next ((s.setTracker c ⟨n, e⟩).answered 0#4 0#32) := rfl

/-- R152: WT_STEP takes the tracker through `Step(T)` and answers whether the width grew. -/
theorem exec_wtStep_of_some {c : Chan} {s : State} {t : Tracker} {grew : Bool} (h : (s.tracker c).step = some (t, grew)) :
    exec (.wtStep c) s = .next ((s.setTracker c t).answered 0#4 ((BitVec.ofBool grew).setWidth 32)) := by
  rw [exec, execWtStep, h]
  rfl

/-- R152: WT_STEP at the last width with no step left raises WidthOverflow(32). -/
theorem exec_wtStep_overflows {c : Chan} {s : State} (h : s.tracker c = ⟨32#6, 0#32⟩) :
    exec (.wtStep c) s = .next ({ s with sticky := s.sticky ||| 0b001000#6 }.answered 4#4 32#32) := by
  rw [exec, execWtStep, h]
  rfl

/-! ### The width schedule -/

/-- After `j` WT_STEPs of channel `c` from `s` that tracker is `t`; apart from the answers the rest is as in `s`. -/
def TrackerAfter (c : Chan) (s : State) (j : Nat) (t : Tracker) : Prop :=
  ∃ answers, execAll (List.replicate j (.wtStep c)) s = .next { s.setTracker c t with results := answers }

theorem trackerAfter_zero (c : Chan) (s : State) : TrackerAfter c s 0 (s.tracker c) :=
  ⟨s.results, by cases c <;> rfl⟩

/-- One more WT_STEP is one more `Step(T)`. -/
theorem TrackerAfter.succ {c : Chan} {s : State} {j : Nat} {t t' : Tracker} {grew : Bool} (h : TrackerAfter c s j t)
    (hstep : t.step = some (t', grew)) : TrackerAfter c s (j + 1) t' := by
  obtain ⟨answers, hrun⟩ := h
  have ht : State.tracker { s.setTracker c t with results := answers } c = t := by cases c <;> rfl
  refine ⟨answers ++ [.response ⟨0#4, (BitVec.ofBool grew).setWidth 32⟩], ?_⟩
  rw [List.replicate_succ', execAll_append, hrun]
  simp only [execAll, exec_wtStep_of_some (ht.symm ▸ hstep)]
  cases c <;> rfl

/-- R155: the width stays for as many steps as `ei` says, each counting `ei` down. -/
theorem TrackerAfter.countDown {c : Chan} {s : State} {j : Nat} {t : Tracker} (h : TrackerAfter c s j t) (i : Nat)
    (hi : i ≤ t.ei.toNat) : ∃ t', TrackerAfter c s (j + i) t' ∧ t'.nb = t.nb ∧ t'.ei.toNat + i = t.ei.toNat := by
  induction i with
  | zero => exact ⟨t, h, rfl, rfl⟩
  | succ i ih =>
    obtain ⟨t', hafter, hnb, hei⟩ := ih (by omega)
    have hne : t'.ei ≠ 0#32 := by
      intro h0
      rw [h0, BitVec.toNat_ofNat] at hei
      omega
    obtain ⟨e, hstep, he⟩ := Tracker.step_countsDown hne
    exact ⟨⟨t'.nb, e⟩, hafter.succ hstep, hnb, by simp only; omega⟩

/-- R155: a width below 32 grows at the step after its `ei` steps. -/
theorem TrackerAfter.grow {c : Chan} {s : State} {j : Nat} {t : Tracker} (h : TrackerAfter c s j t) (hnb : t.nb.toNat < 32) :
    ∃ t', TrackerAfter c s (j + t.ei.toNat + 1) t' ∧ t'.nb.toNat = t.nb.toNat + 1 ∧
      t'.ei.toNat = 2 ^ (t.nb.toNat + 1) - 1 := by
  obtain ⟨u, hafter, hsame, hei⟩ := h.countDown t.ei.toNat le_rfl
  have hzero : u.ei = 0#32 := BitVec.eq_of_toNat_eq (by rw [BitVec.toNat_ofNat]; omega)
  obtain ⟨n, e, hstep, hn, he⟩ := Tracker.step_grows hzero (hsame ▸ hnb)
  exact ⟨⟨n, e⟩, hafter.succ hstep, hsame ▸ hn, hsame ▸ he⟩

/-- R155: the step at which the width of a tracker that is now `t` becomes `nb + k`. -/
def Tracker.growsAt (t : Tracker) (k : Nat) : Nat :=
  t.ei.toNat + 1 + ((List.range (k - 1)).map fun m => 2 ^ (t.nb.toNat + 1 + m)).sum

/-- The width first grows after the `ei` steps it is to last. -/
theorem Tracker.growsAt_one (t : Tracker) : t.growsAt 1 = t.ei.toNat + 1 := rfl

/-- The width `nb + k` lasts `2 ^ (nb + k)` steps. -/
theorem Tracker.growsAt_succ (t : Tracker) {k : Nat} (hk : 1 ≤ k) :
    t.growsAt (k + 1) = t.growsAt k + 2 ^ (t.nb.toNat + k) := by
  obtain ⟨m, rfl⟩ := Nat.exists_eq_add_of_le' hk
  simp only [Tracker.growsAt, Nat.add_sub_cancel, List.range_succ, List.map_append, List.sum_append, List.map_singleton,
    List.sum_singleton]
  rw [Nat.add_assoc t.nb.toNat 1 m, Nat.add_comm 1 m]
  omega

/-- R155: the width becomes `nb + k` at step `growsAt k`, its `ei` then being the greatest number of `nb + k` bits. -/
theorem trackerAfter_growsAt (c : Chan) (s : State) {k : Nat} (hk : 1 ≤ k) (hle : (s.tracker c).nb.toNat + k ≤ 32) :
    ∃ t, TrackerAfter c s ((s.tracker c).growsAt k) t ∧ t.nb.toNat = (s.tracker c).nb.toNat + k ∧
      t.ei.toNat = 2 ^ ((s.tracker c).nb.toNat + k) - 1 := by
  induction k, hk using Nat.le_induction with
  | base =>
    obtain ⟨t, hafter, hnb, hei⟩ := (trackerAfter_zero c s).grow (by omega)
    rw [Nat.zero_add, ← Tracker.growsAt_one] at hafter
    exact ⟨t, hafter, hnb, hei⟩
  | succ k hk ih =>
    obtain ⟨t, hafter, hnb, hei⟩ := ih (by omega)
    obtain ⟨t', hafter', hnb', hei'⟩ := hafter.grow (by omega)
    have hpos := Nat.two_pow_pos ((s.tracker c).nb.toNat + k)
    have hgrows : (s.tracker c).growsAt k + t.ei.toNat + 1 = (s.tracker c).growsAt (k + 1) := by
      rw [Tracker.growsAt_succ _ hk]
      omega
    rw [hgrows] at hafter'
    rw [hnb] at hnb' hei'
    exact ⟨t', hafter', hnb', hei'⟩

/-- R155: the width of a tracker within the steps that the schedule gives to `nb + k`. -/
theorem trackerAfter_of_scheduled {c : Chan} {s : State} {j k : Nat}
    (h : k = 0 ∧ j ≤ (s.tracker c).ei.toNat ∨
      1 ≤ k ∧ (s.tracker c).nb.toNat + k ≤ 32 ∧ (s.tracker c).growsAt k ≤ j ∧ j < (s.tracker c).growsAt (k + 1)) :
    ∃ t, TrackerAfter c s j t ∧ t.nb.toNat = (s.tracker c).nb.toNat + k := by
  rcases h with ⟨rfl, hj⟩ | ⟨hk, hle, hfrom, huntil⟩
  · obtain ⟨t, hafter, hnb, -⟩ := (trackerAfter_zero c s).countDown j hj
    rw [Nat.zero_add] at hafter
    exact ⟨t, hafter, congrArg BitVec.toNat hnb⟩
  · obtain ⟨i, rfl⟩ := Nat.exists_eq_add_of_le hfrom
    rw [Tracker.growsAt_succ _ hk] at huntil
    obtain ⟨u, hgrown, hnb, hei⟩ := trackerAfter_growsAt c s hk hle
    obtain ⟨t, hafter, hsame, -⟩ := hgrown.countDown i (by omega)
    exact ⟨t, hafter, (congrArg BitVec.toNat hsame).trans hnb⟩

/-- Settles O33: each width is entered at its step of the schedule, by induction on `k`, and lasts while `ei` counts
down. -/
theorem widthScheduleLaw : Obligations.WidthScheduleLaw := by
  intro s c j T nb0 growsAt _ k hscheduled
  obtain ⟨t, ⟨answers, hrun⟩, hnb⟩ := trackerAfter_of_scheduled (c := c) hscheduled
  exact ⟨_, t, hrun, hnb, by cases c <;> rfl⟩

/-! ### The commands and their words -/

/-- Settles O30: the effect is the command's meaning; its row takes C, N and V. -/
theorem wtInitLoadsTheSelectedTracker : Obligations.WtInitLoadsTheSelectedTracker :=
  ⟨fun s n e => ⟨exec_wtInit .w n e s, exec_wtInit .r n e s⟩,
    issuedWords_of_decode_ok_iff (by simp [decodeFields, accept_eq_ok, chanOf, and_assoc, and_left_comm])⟩

/-- Settles O31: the three cases of `Step(T)` are the command's three outcomes; its row takes C alone. -/
theorem wtStepAppliesTheTransitionRule : Obligations.WtStepAppliesTheTransitionRule := by
  refine ⟨fun s c => ⟨fun hei => ?_, fun hei hnb => ?_, exec_wtStep_overflows⟩, ?_⟩
  · obtain ⟨e, hstep, he⟩ := Tracker.step_countsDown hei
    exact ⟨e, exec_wtStep_of_some hstep, he⟩
  · obtain ⟨n, e, hstep, hn, he⟩ := Tracker.step_grows hei hnb
    exact ⟨n, e, exec_wtStep_of_some hstep, hn, he⟩
  · exact issuedWords_of_decode_ok_iff (by simp [decodeFields, accept_eq_ok, chanOf, and_assoc, and_left_comm])

/-- R153: WT_READ answers the width. -/
theorem exec_wtRead_nb (c : Chan) (s : State) :
    exec (.wtRead c .nb) s = .next (s.answered 0#4 ((s.tracker c).nb.setWidth 32)) := rfl

/-- R153: WT_READ answers the steps left. -/
theorem exec_wtRead_ei (c : Chan) (s : State) : exec (.wtRead c .ei) s = .next (s.answered 0#4 (s.tracker c).ei) := rfl

/-- Settles O32: the answer is the command's meaning for each field of each tracker; its row takes C and S. -/
theorem wtReadAnswersTheSelectedField : Obligations.WtReadAnswersTheSelectedField :=
  ⟨fun s => ⟨exec_wtRead_nb .w s, exec_wtRead_ei .w s, exec_wtRead_nb .r s, exec_wtRead_ei .r s⟩,
    issuedWords_of_decode_ok_iff
      (by simp [decodeFields, accept_eq_ok, chanOf, trackerFieldOf, and_assoc, and_left_comm])⟩

end Sys2Proof.Machine

/-! Control: STATUS and the reserved opcode (44_control.md R171, R172; 10_state.md R29). -/

namespace Sys2Proof.Machine

/-! ### STATUS -/

/-- R29: the bits of STAT, field by field from bit 0 up. -/
theorem State.stat_getLsbD (s : State) (i : Nat) :
    s.stat.getLsbD i =
      if i < 6 then s.sticky.getLsbD i
      else if i < 8 then false
      else if i < 9 then s.r.act
      else if i < 12 then s.w.pos.getLsbD (i - 9)
      else s.r.rem.getLsbD (i - 12) := by
  have hbeyond : 32 ≤ i → s.r.rem.getLsbD (i - 12) = false := fun hi => BitVec.getLsbD_of_ge _ _ (by omega)
  simp only [State.stat, BitVec.getLsbD_setWidth, BitVec.getLsbD_append, BitVec.getLsbD_zero, BitVec.getLsbD_ofBool,
    Nat.sub_sub]
  grind

/-- R171: STATUS answers STAT as it was before the clearing. -/
theorem exec_status (clr : Bool) (s : State) :
    exec (.status clr) s = .next ({ s with sticky := if clr = true then 0#6 else s.sticky }.answered 0#4 s.stat) := by
  cases clr <;> rfl

/-- Settles O35: the answer is STAT, whose bits are those of its fields; its row takes S alone. -/
theorem statusReadsThenClears : Obligations.StatusReadsThenClears := by
  refine ⟨fun s clr => ⟨s.stat, exec_status clr s, ?_, ?_, ?_, ?_, ?_, ?_, ?_⟩,
    issuedWords_of_decode_ok_iff (by simp [decodeFields, accept_eq_ok, and_assoc, and_left_comm])⟩
  · exact fun i hi => (s.stat_getLsbD i).trans (if_pos hi)
  · exact s.stat_getLsbD 6
  · exact s.stat_getLsbD 7
  · exact s.stat_getLsbD 8
  · intro i hi
    grind [s.stat_getLsbD (9 + i)]
  · intro i hi
    grind [s.stat_getLsbD (12 + i)]
  · intro i hi
    have habove : s.r.rem.getLsbD (i - 12) = false := BitVec.getLsbD_of_ge _ _ (by omega)
    grind [s.stat_getLsbD i]

/-! ### The reserved opcode -/

/-- R172: the reserved command raises IllegalCommand(0), whatever the bits below OP. -/
theorem exec_reserved (x : BitVec 60) (s : State) :
    exec (.reserved x) s = .next ({ s with sticky := s.sticky ||| 0b010000#6 }.answered 5#4 0#32) := rfl

/-- R172: fields decode to the reserved command exactly when OP is 0xF, whatever the other fields. -/
theorem decodeFields_eq_reserved_iff (f : Fields) (low : BitVec 60) :
    (∃ x, decodeFields f low = .ok (.reserved x)) ↔ f.op = 0xF#4 := by
  constructor
  · rintro ⟨x, hdecode⟩
    rcases decodeFields_ok_cases hdecode with ⟨hop, -⟩ | ⟨-, r, hrow, hname⟩
    · exact BitVec.eq_of_toNat_eq hop
    · exact absurd hname.symm (legalRows_mnemonic r (List.mem_of_getElem? hrow)).1
  · intro hop
    exact ⟨low, by rw [decodeFields, hop]; rfl⟩

/-- Settles O36: the effect is the command's meaning, and the decoder finds the reserved row by OP alone. -/
theorem reservedOpcodeRaisesIllegalCommand : Obligations.ReservedOpcodeRaisesIllegalCommand :=
  ⟨exec_reserved, fun w => (decodeFields_eq_reserved_iff (Fields.ofWord w) _).symm⟩

end Sys2Proof.Machine

/-! Exceptions: an ISSUE that raises (60_exceptions.md R181, R183). -/

namespace Sys2Proof.Machine

/-- R132: of a raising command, R_START alone has closed the session. -/
theorem raiseBase_eq (i : Instr) (s : State) :
    raiseBase i s = { s with r := if i = .rStart then s.r.close else s.r } := by
  rw [raiseBase]
  split <;> rfl

/-- An ISSUE that goes on has answered OK, or raised from a state in which only R_START has closed the session. -/
theorem issue_cases {w : CmdWord} {s t : State} (h : issue w s = .next t) :
    (∃ (s1 : State) (d : Data), s1.results = s.results ∧ t = s1.respond d) ∨
    ∃ e d, t = State.raise { s with r := if decode w = .ok .rStart then s.r.close else s.r } e d := by
  cases hdecode : decode w with
  | error why =>
    rw [issue, hdecode] at h
    cases h
    exact .inr ⟨.illegalCommand, 0#32, rfl⟩
  | ok i =>
    rw [issue_of_decode_ok hdecode] at h
    rcases exec_cases h with ⟨s1, d, hsucceeds, rfl⟩ | ⟨e, d, rfl⟩
    · obtain ⟨-, -, hresults, -⟩ := hsucceeds.frame
      exact .inl ⟨s1, d, hresults, rfl⟩
    · exact .inr ⟨e, d, by simp only [raiseBase_eq, Except.ok.injEq]⟩

/-- The last response the host got has one code. -/
theorem code_eq_of_append_response {l : List HostResult} {c c' : BitVec 4} {d d' : Data}
    (h : l ++ [.response ⟨c, d⟩] = l ++ [.response ⟨c', d'⟩]) : c = c' := by
  cases List.append_cancel_left h
  rfl

/-- Settles O41: an answer with a code other than OK is that of a raise, whose effect is the sticky bit of its error. -/
theorem errorsArePrecise : Obligations.ErrorsArePrecise := by
  intro s t w c d hissue hanswer hc
  rcases issue_cases hissue with ⟨s1, d', hresults, rfl⟩ | ⟨e, d', rfl⟩
  · rw [State.respond_results, hresults] at hanswer
    exact absurd (code_eq_of_append_response hanswer).symm hc
  · obtain rfl : e.code = c := code_eq_of_append_response hanswer
    obtain ⟨hlow, hhigh, hmask⟩ := e.stickyMask_eq
    refine ⟨hlow, hhigh, ?_⟩
    rw [← hmask]
    rfl

end Sys2Proof.Machine

/-! Encoding: decoding and encoding undo each other, and the assembler's lines (30_encoding.md R70 to R78). -/

namespace Sys2Proof

open Machine (extractLsb'_high_eq_zero_iff)
open Laws.EncodedFields (fieldsOf)

/-! ### The fields of a command's word -/

/-- R71, R77: the word of a command has the fields its row gives it. -/
theorem ofWord_encode (i : Instr) : Fields.ofWord (encode i) = fieldsOf i := by
  cases i with
  | reserved x => exact Laws.EncodedFields.reserved x
  | _ => exact Fields.ofWord_assembleWord _ _ _ _ _

/-- R71: a word is no more than its fields. -/
theorem eq_of_ofWord_eq {w w' : CmdWord} (h : Fields.ofWord w = Fields.ofWord w') : w = w' := by
  rw [← Fields.toWord_ofWord w, h, Fields.toWord_ofWord]

/-- R72: a word with the reserved OP is the reserved command's, with the bits below OP as they are. -/
theorem encode_reserved_of_op {w : CmdWord} (h : (Fields.ofWord w).op = 0xF#4) :
    encode (.reserved (w.extractLsb' 0 60)) = w := by
  have hop : w.extractLsb' 60 4 = 0xF#4 := h
  have htop : (0xF#64 : CmdWord) = (w.extractLsb' 60 4).setWidth 64 := by rw [hop]; rfl
  rw [encode, htop]
  apply BitVec.eq_of_getLsbD_eq
  intro j hj
  rcases Nat.lt_or_ge j 60 with hlow | hhigh
  · simp [hlow, hj]
  · simp [Nat.not_lt.2 hhigh, hj, Nat.add_sub_cancel' hhigh, show j - 60 < 4 by omega]

/-! ### Operands narrower than V -/

/-- A `k`-bit operand is what the decoder reads back from the low bits of V. -/
theorem extractLsb'_low_setWidth {k m : Nat} (v : BitVec k) (h : k ≤ m) : (v.setWidth m).extractLsb' 0 k = v := by
  rw [BitVec.extractLsb'_setWidth_of_le (by omega), BitVec.extractLsb'_eq_self]

/-- A `k`-bit operand leaves the bits of V above it zero. -/
theorem extractLsb'_high_setWidth {k m : Nat} (v : BitVec k) (h : k ≤ m) :
    (v.setWidth m).extractLsb' k (m - k) = 0#(m - k) := by
  rw [extractLsb'_high_eq_zero_iff, BitVec.toNat_setWidth_of_le h]
  exact v.isLt

/-- A V with zeros above its `k` low bits is the `k`-bit operand widened. -/
theorem setWidth_extractLsb'_low {k m : Nat} {v : BitVec m} (h : v.extractLsb' k (m - k) = 0#(m - k)) :
    (v.extractLsb' 0 k).setWidth m = v := by
  have hlt : v.toNat < 2 ^ k := (extractLsb'_high_eq_zero_iff v k).1 h
  apply BitVec.eq_of_toNat_eq
  simp [Nat.mod_eq_of_lt hlt]

/-- S of STATUS and STATUS.CLR, read back (R171). -/
theorem decide_ofBool_eq_one (clr : Bool) : decide (BitVec.ofBool clr = 1#1) = clr := by cases clr <;> decide
theorem ofBool_decide_eq_one (s : BitVec 1) : BitVec.ofBool (decide (s = 1#1)) = s := by revert s; decide

/-! ### Decoding -/

/-- R73, R77: the fields of a well-formed command meet its row. -/
theorem decodeFields_fieldsOf {i : Instr} (h : i.wellFormed = true) (hne : ∀ x, i ≠ .reserved x) (low : BitVec 60) :
    decodeFields (fieldsOf i) low = .ok i := by
  cases i with
  | reserved x => exact absurd rfl (hne x)
  | symEnc v =>
    exact accept_eq_ok.2 ⟨rfl, rfl, decide_eq_true (extractLsb'_high_setWidth v (by omega)),
      congrArg Instr.symEnc (extractLsb'_low_setWidth v (by omega))⟩
  | symDec u =>
    exact accept_eq_ok.2 ⟨rfl, rfl, decide_eq_true (extractLsb'_high_setWidth u (by omega)),
      congrArg Instr.symDec (extractLsb'_low_setWidth u (by omega))⟩
  | rev16 x =>
    exact accept_eq_ok.2 ⟨rfl, rfl, decide_eq_true (extractLsb'_high_setWidth x (by omega)),
      congrArg Instr.rev16 (extractLsb'_low_setWidth x (by omega))⟩
  | wBits n v => exact accept_eq_ok.2 ⟨rfl, rfl, h, rfl⟩
  | rBits n => exact accept_eq_ok.2 ⟨rfl, rfl, h, rfl⟩
  | wtInit c n e => exact accept_eq_ok.2 ⟨rfl, rfl, h, congrArg (Instr.wtInit · n e) (chanOf_bit c)⟩
  | wtStep c => exact accept_eq_ok.2 ⟨rfl, rfl, rfl, congrArg Instr.wtStep (chanOf_bit c)⟩
  | wtRead c f => exact accept_eq_ok.2 ⟨rfl, rfl, rfl, congrArg₂ Instr.wtRead (chanOf_bit c) (trackerFieldOf_bit f)⟩
  | status clr => exact accept_eq_ok.2 ⟨rfl, rfl, rfl, congrArg Instr.status (decide_ofBool_eq_one clr)⟩
  | nop | wInit | wCode | wFlush | rStart | rCode => exact accept_eq_ok.2 ⟨rfl, rfl, rfl, rfl⟩

/-- R73, R76: fields that decode belong to a well-formed command, the reserved one or the one that has these fields. -/
theorem fieldsOf_of_decodeFields {f : Fields} {low : BitVec 60} {i : Instr} (h : decodeFields f low = .ok i) :
    i.wellFormed = true ∧ ((f.op = 0xF#4 ∧ i = .reserved low) ∨ fieldsOf i = f) := by
  obtain ⟨⟨op⟩, c, n, s, z, v⟩ := f
  have hv6 : v.extractLsb' 6 26 = 0#26 → (v.extractLsb' 0 6).setWidth 32 = v := setWidth_extractLsb'_low
  have hv16 : v.extractLsb' 16 16 = 0#16 → (v.extractLsb' 0 16).setWidth 32 = v := setWidth_extractLsb'_low
  fin_cases op
  -- the reserved opcode, the last of the sixteen
  on_goal 16 =>
    cases h
    exact ⟨rfl, .inl ⟨rfl, rfl⟩⟩
  all_goals
    obtain ⟨hz, hunused, hrange, rfl⟩ := accept_eq_ok.1 h
    refine ⟨by simp_all [Instr.wellFormed], .inr ?_⟩
    simp_all [fieldsOf, bit_chanOf, bit_trackerFieldOf, ofBool_decide_eq_one]

end Sys2Proof

namespace Sys2Proof.Machine

/-- Settles O1: the fields of the word are those of the command, which its row accepts; the reserved row keeps its word. -/
theorem decodeOfEncodeIsTheCommand : Obligations.DecodeOfEncodeIsTheCommand := by
  intro i hwf
  rw [decode_eq]
  by_cases hreserved : ∃ x, i = .reserved x
  · obtain ⟨x, rfl⟩ := hreserved
    rw [decodeFields, encode_reserved_op, encode_reserved_low]
    rfl
  · rw [ofWord_encode]
    exact decodeFields_fieldsOf hwf (not_exists.1 hreserved) _

/-- Settles O2: the command that a word decodes to has the fields of the word, and a word is no more than its fields. -/
theorem encodeOfDecodeIsTheWord : Obligations.EncodeOfDecodeIsTheWord := by
  intro w i hdecode
  obtain ⟨hwf, ⟨hop, rfl⟩ | hfields⟩ := fieldsOf_of_decodeFields hdecode
  · exact ⟨hwf, encode_reserved_of_op hop⟩
  · exact ⟨hwf, eq_of_ofWord_eq ((ofWord_encode i).trans hfields)⟩

end Sys2Proof.Machine

namespace Sys2Proof

/-! ### Assembler lines -/

/-- R71, R77: a number that the assembler takes as a width is at most 32. -/
theorem legalWidth_of_asmWidth {k : Nat} {n : BitVec 6} (h : asmWidth k = some n) : legalWidth n = true := by
  obtain ⟨hk, hn⟩ := Option.ite_none_right_eq_some.1 h
  cases hn
  exact decide_eq_true (by rw [BitVec.toNat_ofNat]; omega)

/-- R77: an accepted line stands for well-formed commands only. -/
theorem AsmLine.wellFormed_of_toInstrs {l : AsmLine} {is : List Instr} (h : l.toInstrs = some is) :
    ∀ i ∈ is, i.wellFormed = true := by
  cases l with
  | wBits n v =>
    obtain ⟨n', hn, hv⟩ := Option.bind_eq_some_iff.1 h
    obtain ⟨v', -, rfl⟩ := Option.map_eq_some_iff.1 hv
    exact List.forall_mem_singleton.2 (legalWidth_of_asmWidth hn)
  | rBits n =>
    obtain ⟨n', hn, rfl⟩ := Option.map_eq_some_iff.1 h
    exact List.forall_mem_singleton.2 (legalWidth_of_asmWidth hn)
  | wtInit c n e =>
    obtain ⟨n', hn, he⟩ := Option.bind_eq_some_iff.1 h
    obtain ⟨e', -, rfl⟩ := Option.map_eq_some_iff.1 he
    exact List.forall_mem_singleton.2 (legalWidth_of_asmWidth hn)
  | wCode | symEnc | symDec | rev16 | wRef =>
    obtain ⟨v', -, rfl⟩ := Option.map_eq_some_iff.1 h
    simp [Instr.wellFormed, Pseudo.expand]
  | _ =>
    cases h
    simp [Instr.wellFormed, Pseudo.expand]

/-- R77: a number that fits its operand is accepted as it is. -/
theorem asmOperand_toNat {width : Nat} (v : BitVec width) : asmOperand width v.toNat = some v := by
  rw [asmOperand, if_pos v.isLt, BitVec.ofNat_toNat, BitVec.setWidth_eq]

/-- R77: a number is refused exactly when it does not fit its operand. -/
theorem asmOperand_eq_none_iff {width k : Nat} : asmOperand width k = none ↔ ¬ k < 2 ^ width := by
  simp [asmOperand]

theorem asmWidth_eq_none_iff {k : Nat} : asmWidth k = none ↔ ¬ k ≤ 32 := by
  simp [asmWidth]

/-- R77: a W_BITS line is refused where one of its numbers is. -/
theorem AsmLine.assemble_wBits_eq_none_iff (n v : Nat) :
    (AsmLine.wBits n v).assemble = none ↔ ¬ (n ≤ 32 ∧ v < 2 ^ 32) := by
  rw [assemble, Option.map_eq_none_iff, toInstrs, not_and_or, ← asmWidth_eq_none_iff, ← asmOperand_eq_none_iff]
  cases asmWidth n <;> simp

end Sys2Proof

namespace Sys2Proof.Machine

/-- Settles O7: the words of an accepted line encode well-formed commands, so they decode to them. -/
theorem assembledLinesDecodeToTheirCommands : Obligations.AssembledLinesDecodeToTheirCommands := by
  refine ⟨fun l is h => ⟨is.map encode, by rw [AsmLine.assemble, h]; rfl, ?_⟩, AsmLine.assemble_wBits_eq_none_iff, rfl,
    fun _ => rfl, fun v => ?_, rfl⟩
  · rw [List.map_map]
    exact List.map_congr_left fun i hi => decodeOfEncodeIsTheCommand i (AsmLine.wellFormed_of_toInstrs h i hi)
  · rw [AsmLine.toInstrs, asmOperand_toNat]
    rfl

/-- Settles O5: each of the ten words is decoded. -/
theorem sampleWordsDecode : Obligations.SampleWordsDecode :=
  ⟨rfl, rfl, rfl, rfl, rfl, rfl, rfl, rfl, rfl, rfl⟩

end Sys2Proof.Machine

/-! What a command and a step leave unchanged (10_state.md R24 to R30; 20_memory.md R57 to R62). -/

namespace Sys2Proof.Machine

/-! ### One command -/

/-- PutBits only append to OUT (R110), whatever the writer. -/
theorem putBits_out (bs : List Bool) (w : Writer) : ∃ us, (w.putBits bs).out = w.out ++ us := by
  induction bs generalizing w with
  | nil => exact ⟨[], (List.append_nil _).symm⟩
  | cons b bs ih =>
    have hbit : ∃ us, (w.putBit b).out = w.out ++ us := by
      by_cases h6 : w.pos + 1#3 = 6#3
      · exact ⟨_, by rw [putBit_emit h6]⟩
      · exact ⟨[], by rw [putBit_hold h6, List.append_nil]⟩
    obtain ⟨us, hus⟩ := hbit
    obtain ⟨vs, hvs⟩ := ih (w.putBit b)
    exact ⟨us ++ vs, by rw [← List.append_assoc, ← hus, ← hvs]; rfl⟩

/-- R5: a command that succeeds changes the sticky bits, the writer, the reader or one tracker, and no two of them. Only
STATUS.CLR, W_INIT, the commands that write or flush, those of the reader, and WT_INIT and WT_STEP change anything. -/
theorem Succeeds.cases {i : Instr} {s s1 : State} (h : Succeeds i s s1) :
    s1 = s ∨
    (i = .status true ∧ s1 = { s with sticky := 0#6 }) ∨
    (∃ w', ((i = .wInit ∧ w'.out = []) ∨ ((isWrite i = true ∨ i = .wFlush) ∧ ∃ us, w'.out = s.w.out ++ us)) ∧
      s1 = { s with w := w' }) ∨
    (∃ r', (i = .rStart ∨ r'.act = s.r.act) ∧ r'.buf = s.r.buf ∧ r'.len = s.r.len ∧ s1 = { s with r := r' }) ∨
    (∃ c t, ((∃ n e, i = .wtInit c n e) ∨ i = .wtStep c) ∧ s1 = s.setTracker c t) := by
  cases i with
  | nop | wtRead | symEnc | rev16 => exact .inl h
  | symDec u => exact .inl h.1
  | status clr =>
    cases clr
    · exact .inl h
    · exact .inr (.inl ⟨rfl, h⟩)
  | wInit => exact .inr (.inr (.inl ⟨_, .inl ⟨rfl, rfl⟩, h⟩))
  | wBits n v => exact .inr (.inr (.inl ⟨_, .inr ⟨.inl rfl, putBits_out _ _⟩, h.1⟩))
  | wCode v => exact .inr (.inr (.inl ⟨_, .inr ⟨.inl rfl, putBits_out _ _⟩, h.1⟩))
  | wFlush =>
    rcases h with ⟨-, rfl⟩ | ⟨-, -, rfl⟩ | ⟨-, -, rfl⟩
    · exact .inl rfl
    · exact .inr (.inr (.inl ⟨_, .inr ⟨.inr rfl, _, rfl⟩, rfl⟩))
    · exact .inr (.inr (.inl ⟨_, .inr ⟨.inr rfl, _, rfl⟩, rfl⟩))
  | rStart =>
    obtain ⟨rfl, -⟩ := h
    exact .inr (.inr (.inr (.inl ⟨{ s.r.close with act := true }, .inl rfl, rfl, rfl, rfl⟩)))
  | rBits n =>
    obtain ⟨-, -, bs, r', hread, rfl⟩ := h
    obtain ⟨hbuf, hlen, hact, -⟩ := getBits_frame hread
    exact .inr (.inr (.inr (.inl ⟨r', .inr hact, hbuf, hlen, rfl⟩)))
  | rCode =>
    obtain ⟨-, -, bs, r', hread, rfl⟩ := h
    obtain ⟨hbuf, hlen, hact, -⟩ := getBits_frame hread
    exact .inr (.inr (.inr (.inl ⟨r', .inr hact, hbuf, hlen, rfl⟩)))
  | wtInit c n e => exact .inr (.inr (.inr (.inr ⟨c, _, .inl ⟨n, e, rfl⟩, h⟩)))
  | wtStep c =>
    obtain ⟨t, g, -, rfl⟩ := h
    exact .inr (.inr (.inr (.inr ⟨c, t, .inr rfl, rfl⟩)))
  | reserved x => exact h.elim

@[simp] theorem State.w_setTracker (s : State) (c : Chan) (t : Tracker) : (s.setTracker c t).w = s.w := by cases c <;> rfl
@[simp] theorem State.r_setTracker (s : State) (c : Chan) (t : Tracker) : (s.setTracker c t).r = s.r := by cases c <;> rfl
@[simp] theorem State.sticky_setTracker (s : State) (c : Chan) (t : Tracker) : (s.setTracker c t).sticky = s.sticky := by
  cases c <;> rfl

theorem State.tracker_setTracker_of_ne (s : State) {c c' : Chan} (t : Tracker) (h : c' ≠ c) :
    (s.setTracker c t).tracker c' = s.tracker c' := by
  cases c <;> cases c' <;> simp_all

@[simp] theorem raiseBase_tracker (i : Instr) (s : State) (c : Chan) : (raiseBase i s).tracker c = s.tracker c := by
  cases c <;> simp

/-- R25: no command writes IN or L. -/
theorem exec_keeps_input {i : Instr} {s t : State} (h : exec i s = .next t) : t.r.buf = s.r.buf ∧ t.r.len = s.r.len := by
  rcases exec_cases h with ⟨s1, d, hsucceeds, rfl⟩ | ⟨e, d, rfl⟩
  · rcases hsucceeds.cases with rfl | ⟨-, rfl⟩ | ⟨w', -, rfl⟩ | ⟨r', -, hbuf, hlen, rfl⟩ | ⟨c, T, -, rfl⟩
    case inr.inr.inr.inl => exact ⟨hbuf, hlen⟩
    all_goals simp
  · simp

/-- R26: no command but R_START opens or closes the session. -/
theorem exec_keeps_session {i : Instr} {s t : State} (h : exec i s = .next t) (hi : i ≠ .rStart) : t.r.act = s.r.act := by
  rcases exec_cases h with ⟨s1, d, hsucceeds, rfl⟩ | ⟨e, d, rfl⟩
  · rcases hsucceeds.cases with rfl | ⟨-, rfl⟩ | ⟨w', -, rfl⟩ | ⟨r', hact, -, -, rfl⟩ | ⟨c, T, -, rfl⟩
    case inr.inr.inr.inl => exact hact.resolve_left hi
    all_goals simp
  · simp [raiseBase_of_ne s hi]

/-- R30: a command that succeeds keeps the sticky bits, unless it is STATUS.CLR. -/
theorem Succeeds.sticky {i : Instr} {s s1 : State} (h : Succeeds i s s1) (hi : i ≠ .status true) : s1.sticky = s.sticky := by
  rcases h.cases with rfl | ⟨hclr, -⟩ | ⟨w', -, rfl⟩ | ⟨r', -, -, -, rfl⟩ | ⟨c, T, -, rfl⟩
  case inr.inl => exact absurd hclr hi
  all_goals simp

/-- R30: no command but STATUS.CLR clears a sticky bit. -/
theorem exec_keeps_stickyBit {i : Instr} {s t : State} {k : Nat} (h : exec i s = .next t) (hi : i ≠ .status true)
    (hk : s.sticky.getLsbD k = true) : t.sticky.getLsbD k = true := by
  rcases exec_cases h with ⟨s1, d, hsucceeds, rfl⟩ | ⟨e, d, rfl⟩
  · exact (congrArg (·.getLsbD k) (hsucceeds.sticky hi)).trans hk
  · rw [State.raise_sticky, raiseBase_sticky, BitVec.getLsbD_or, hk, Bool.true_or]

/-- R24: a command leaves OUT alone, empties it as W_INIT, or appends to it as a write or a flush. -/
theorem exec_out_cases {i : Instr} {s t : State} (h : exec i s = .next t) :
    t.w.out = s.w.out ∨ (i = .wInit ∧ t.w.out = []) ∨ ((isWrite i = true ∨ i = .wFlush) ∧ ∃ us, t.w.out = s.w.out ++ us) := by
  rcases exec_cases h with ⟨s1, d, hsucceeds, rfl⟩ | ⟨e, d, rfl⟩
  · rcases hsucceeds.cases with rfl | ⟨-, rfl⟩ | ⟨w', hout, rfl⟩ | ⟨r', -, -, -, rfl⟩ | ⟨c, T, -, rfl⟩
    case inr.inr.inl => exact .inr hout
    all_goals simp
  · simp

/-- R27: no command but WT_INIT and WT_STEP of its channel changes a tracker. -/
theorem exec_keeps_tracker {i : Instr} {s t : State} {c : Chan} (h : exec i s = .next t)
    (hi : ¬ ((∃ n e, i = .wtInit c n e) ∨ i = .wtStep c)) : t.tracker c = s.tracker c := by
  rcases exec_cases h with ⟨s1, d, hsucceeds, rfl⟩ | ⟨e, d, rfl⟩
  · have hsame : (s1.respond d).tracker c = s1.tracker c := by cases c <;> rfl
    rw [hsame]
    rcases hsucceeds.cases with rfl | ⟨-, rfl⟩ | ⟨w', -, rfl⟩ | ⟨r', -, -, -, rfl⟩ | ⟨c', T, hc, rfl⟩
    case inr.inr.inr.inr =>
      exact s.tracker_setTracker_of_ne T fun hcc => hi (hcc ▸ hc)
    all_goals cases c <;> rfl
  · have hsame : ((raiseBase i s).raise e d).tracker c = (raiseBase i s).tracker c := by cases c <;> rfl
    rw [hsame, raiseBase_tracker]

/-- R58, R62: a command keeps the parameters and the pending actions, and answers once. -/
theorem exec_frame {i : Instr} {s t : State} (h : exec i s = .next t) :
    t.cfg = s.cfg ∧ t.pending = s.pending ∧ ∃ x, t.results = s.results ++ [x] := by
  rcases exec_cases h with ⟨s1, d, hsucceeds, rfl⟩ | ⟨e, d, rfl⟩
  · obtain ⟨hcfg, hpending, hresults, -⟩ := hsucceeds.frame
    exact ⟨hcfg, hpending, _, congrArg (· ++ _) hresults⟩
  · simp

/-! ### One step -/

/-- Settles O45: commands keep IN and L, and so does a drain. -/
theorem inputBufferChangesOnlyByLoadOrReset : Obligations.InputBufferChangesOnlyByLoadOrReset := by
  intro s t hstep hload hreset
  rcases step_cases hstep with ⟨-, rfl⟩ | ⟨a, rest, hp, hact⟩
  · exact ⟨rfl, rfl⟩
  · rcases hact with ⟨w, i, rfl, -, hexec⟩ | ⟨w, e, rfl, -, rfl⟩ | ⟨us, rfl, -, rfl⟩ | ⟨k, rfl, -, rfl⟩ | ⟨rfl, rfl⟩
    · exact (exec_keeps_input hexec :)
    · exact ⟨rfl, rfl⟩
    · exact absurd hp (hload us rest)
    · exact ⟨rfl, rfl⟩
    · exact absurd hp (hreset rest)

/-- R26: a step leaves the session as it is, unless it issues R_START, or closes it as a load or a reset. -/
theorem step_session_cases {s t : State} (h : step s = .next t) :
    t.r.act = s.r.act ∨
    ∃ a rest, s.pending = a :: rest ∧
      ((∃ w, a = .issue w ∧ decode w = .ok .rStart) ∨ (t.r.act = false ∧ (a = .reset ∨ ∃ us, a = .loadIn us))) := by
  rcases step_cases h with ⟨-, rfl⟩ | ⟨a, rest, hp, hact⟩
  · exact .inl rfl
  · rcases hact with ⟨w, i, rfl, hd, hexec⟩ | ⟨w, e, rfl, -, rfl⟩ | ⟨us, rfl, -, rfl⟩ | ⟨k, rfl, -, rfl⟩ | ⟨rfl, rfl⟩
    · by_cases hi : i = .rStart
      · exact .inr ⟨_, rest, hp, .inl ⟨w, rfl, hi ▸ hd⟩⟩
      · exact .inl (exec_keeps_session hexec hi :)
    · exact .inl rfl
    · exact .inr ⟨_, rest, hp, .inr ⟨rfl, .inr ⟨us, rfl⟩⟩⟩
    · exact .inl rfl
    · exact .inr ⟨_, rest, hp, .inr ⟨rfl, .inl rfl⟩⟩

/-- Settles O29: a session that opens is none that a load or a reset leaves, and one that closes is not as it was. -/
theorem sessionsOpenAtStartAndEndAtStartLoadOrReset : Obligations.SessionsOpenAtStartAndEndAtStartLoadOrReset := by
  intro s t hstep
  constructor
  · intro hclosed hopen
    rcases step_session_cases hstep with hsame | ⟨a, rest, hp, ⟨w, rfl, hd⟩ | ⟨hshut, -⟩⟩
    · simp [hsame, hclosed] at hopen
    · exact ⟨w, rest, hp, hd⟩
    · simp [hshut] at hopen
  · intro hopen hclosed
    rcases step_session_cases hstep with hsame | ⟨a, rest, hp, hstart | ⟨-, hreset | hload⟩⟩
    · simp [hsame, hopen] at hclosed
    · exact ⟨a, rest, hp, .inr (.inr hstart)⟩
    · exact ⟨a, rest, hp, .inl hreset⟩
    · exact ⟨a, rest, hp, .inr (.inl hload)⟩

/-- R30: a set sticky bit stays set in a step that is no reset and no issue of STATUS.CLR. -/
theorem step_stickyBit_cases {s t : State} {k : Nat} (h : step s = .next t) (hset : s.sticky.getLsbD k = true) :
    t.sticky.getLsbD k = true ∨
    ∃ a rest, s.pending = a :: rest ∧ (a = .reset ∨ ∃ w, a = .issue w ∧ decode w = .ok (.status true)) := by
  rcases step_cases h with ⟨-, rfl⟩ | ⟨a, rest, hp, hact⟩
  · exact .inl hset
  · rcases hact with ⟨w, i, rfl, hd, hexec⟩ | ⟨w, e, rfl, -, rfl⟩ | ⟨us, rfl, -, rfl⟩ | ⟨k, rfl, -, rfl⟩ | ⟨rfl, rfl⟩
    · by_cases hi : i = .status true
      · exact .inr ⟨_, rest, hp, .inr ⟨w, rfl, hi ▸ hd⟩⟩
      · exact .inl (exec_keeps_stickyBit hexec hi hset)
    · exact .inl (by rw [State.raise_sticky, BitVec.getLsbD_or, hset, Bool.true_or])
    · exact .inl hset
    · exact .inl hset
    · exact .inr ⟨_, rest, hp, .inl rfl⟩

/-- Settles O42: a bit that a step clears is not one that stays set, and a command that answers OK has succeeded. -/
theorem stickyBitsAreClearedOnlyByStatusClrOrReset : Obligations.StickyBitsAreClearedOnlyByStatusClrOrReset := by
  constructor
  · intro s t k hstep hset hclear
    exact (step_stickyBit_cases hstep hset).resolve_left (Bool.eq_false_iff.1 hclear)
  · intro s t i d hexec hanswer hi
    rcases exec_cases hexec with ⟨s1, d', hsucceeds, rfl⟩ | ⟨e, d', rfl⟩
    · exact hsucceeds.sticky hi
    · rw [← raiseBase_results i s] at hanswer
      exact absurd hanswer ((raiseBase i s).raise_results_ne_ok e d' d)

/-- Settles O43: each host action does to OUT what a queue allows; the commands' part is `exec_out_cases`. -/
theorem outputQueueChangesOnlyAsAQueue : Obligations.OutputQueueChangesOnlyAsAQueue := by
  intro s t hstep
  rcases step_cases hstep with ⟨-, rfl⟩ | ⟨a, rest, hp, hact⟩
  · exact .inl rfl
  · rcases hact with ⟨w, i, rfl, hd, hexec⟩ | ⟨w, e, rfl, -, rfl⟩ | ⟨us, rfl, -, rfl⟩ | ⟨k, rfl, -, rfl⟩ | ⟨rfl, rfl⟩
    · rcases exec_out_cases hexec with hsame | ⟨rfl, hempty⟩ | ⟨hwrites, us, happend⟩
      · exact .inl hsame
      · exact .inr ⟨_, rest, hp, .inr (.inl ⟨.inr ⟨w, rfl, hd⟩, hempty⟩)⟩
      · exact .inr ⟨_, rest, hp, .inl ⟨w, i, us, rfl, hd, hwrites, happend⟩⟩
    · exact .inl rfl
    · exact .inl rfl
    · exact .inr ⟨_, rest, hp, .inr (.inr ⟨k, rfl, rfl⟩)⟩
    · exact .inr ⟨_, rest, hp, .inr (.inl ⟨.inl rfl, rfl⟩)⟩

/-- Settles O46: of the commands only those of the tracker change it, and of the other host actions only a reset. -/
theorem trackersChangeOnlyByTheirOwnCommands : Obligations.TrackersChangeOnlyByTheirOwnCommands := by
  intro s t c hstep hchanged
  have hpending : ∀ rest, State.tracker { s with pending := rest } c = s.tracker c := fun _ => by cases c <;> rfl
  rcases step_cases hstep with ⟨-, rfl⟩ | ⟨a, rest, hp, hact⟩
  · exact absurd rfl hchanged
  · rcases hact with ⟨w, i, rfl, hd, hexec⟩ | ⟨w, e, rfl, -, rfl⟩ | ⟨us, rfl, -, rfl⟩ | ⟨k, rfl, -, rfl⟩ | ⟨rfl, rfl⟩
    · by_cases hi : (∃ n e, i = .wtInit c n e) ∨ i = .wtStep c
      · refine ⟨_, rest, hp, .inr ⟨w, rfl, ?_⟩⟩
        rcases hi with ⟨n, e, rfl⟩ | rfl
        · exact .inl ⟨n, e, hd⟩
        · exact .inr hd
      · exact absurd ((exec_keeps_tracker hexec hi).trans (hpending rest)) hchanged
    · exact absurd (by cases c <;> rfl) hchanged
    · exact absurd (by cases c <;> rfl) hchanged
    · exact absurd (by cases c <;> rfl) hchanged
    · exact ⟨_, rest, hp, .inl rfl⟩

/-- Settles O13: a command keeps the other pending actions and the parameters and answers once, and so does each of the other
host actions, with no answer for a load and a reset. -/
theorem actionsAreTakenOneAtATimeInOrder : Obligations.ActionsAreTakenOneAtATimeInOrder := by
  intro s t hstep
  rcases step_cases hstep with ⟨hp, rfl⟩ | ⟨a, rest, hp, hact⟩
  · exact ⟨by rw [hp]; rfl, rfl, .inl rfl⟩
  · rw [hp]
    rcases hact with ⟨w, i, rfl, -, hexec⟩ | ⟨w, e, rfl, -, rfl⟩ | ⟨us, rfl, -, rfl⟩ | ⟨k, rfl, -, rfl⟩ | ⟨rfl, rfl⟩
    · obtain ⟨hcfg, hpending, hanswer⟩ := exec_frame hexec
      exact ⟨hpending, hcfg, .inr hanswer⟩
    · exact ⟨rfl, rfl, .inr ⟨_, rfl⟩⟩
    · exact ⟨rfl, rfl, .inl rfl⟩
    · exact ⟨rfl, rfl, .inr ⟨_, rfl⟩⟩
    · exact ⟨rfl, rfl, .inl rfl⟩

end Sys2Proof.Machine

/-! The invariant of the block: power-on meets it and every step keeps it (10_state.md R20 to R27, R31). -/

namespace Sys2Proof.Machine

/-! ### Power-on -/

/-- R31: the invariant holds after power-on with legal parameters. -/
theorem State.powerOn_inv {cfg : Config} (h : cfg.Legal) (epoch : Nat) : (State.powerOn cfg epoch).Inv := by
  refine ⟨h, ⟨by simp [powerOn], by simp [powerOn], by simp [powerOn]⟩, Nat.zero_le _, ?_, Nat.zero_le _, Nat.zero_le _⟩
  exact ⟨freeCells_length cfg epoch, Nat.zero_le _, Nat.le_refl _, Nat.zero_le _, fun _ => rfl, fun _ => ⟨rfl, rfl, rfl⟩,
    by simp [powerOn], by simp [powerOn]⟩

/-- Settles O38: power-on meets the invariant, and the parameters of `State.reset` are legal. -/
theorem powerOnMeetsTheInvariant : Obligations.PowerOnMeetsTheInvariant :=
  ⟨State.powerOn_inv (by decide) 0, fun _ epoch h => State.powerOn_inv h epoch⟩

/-- Settles O11: each field is read off the definition. -/
theorem powerOnHasTheResetValues : Obligations.PowerOnHasTheResetValues :=
  ⟨fun cfg e => ⟨rfl, rfl, rfl, rfl, freeCells_length cfg e, rfl, rfl, rfl, rfl, rfl, rfl, rfl, rfl,
    State.stat_eq_zero rfl rfl rfl rfl, rfl, rfl⟩, rfl⟩

/-! ### Every step keeps the invariant -/

theorem Writer.ok_empty : Writer.Ok { acc := 0#6, pos := 0#3, out := [] } := ⟨by simp, by simp, by simp⟩

/-- A symbol appended to OUT, with the accumulator kept (R23, R24). -/
theorem Writer.Ok.append {w : Writer} (h : w.Ok) (v : SymVal) : (w.append (symbolFor v)).Ok := by
  obtain ⟨hpos, hacc, hout⟩ := h
  refine ⟨hpos, hacc, fun u hu => ?_⟩
  rcases List.mem_append.1 hu with hu | hu
  · exact hout u hu
  · exact List.mem_singleton.1 hu ▸ isAlphabet_symbolFor v

/-- An accumulator emptied, with OUT kept (R23, R24). -/
theorem Writer.Ok.emptied {w : Writer} (h : w.Ok) : Writer.Ok { w with acc := 0#6, pos := 0#3 } :=
  ⟨by simp, by simp, h.2.2⟩

/-- R112: what a write emits is what it appends. -/
theorem putBits_out_length {w : Writer} (h : w.Ok) (n : Nat) (v : Data) :
    (w.putBits (codeBits n v)).out.length = w.out.length + w.emits n := by
  obtain ⟨-, -, -, us, hout, hcount⟩ := putBits_spec (codeBits n v) w h
  rw [hout, List.length_append, hcount, codeBits_length, Writer.emits]

/-- R132: an input with no invalid cell holds alphabet units alone. -/
theorem Reader.isAlphabet_of_firstInvalid_eq_none {r : Reader} (h : r.firstInvalid = none) :
    ∀ u ∈ r.loaded, isAlphabet u = true := by
  intro u hu
  simpa [isAlphabet, Option.isSome_iff_ne_none] using List.findIdx?_eq_none_iff.1 h u hu

/-- R26, R132: opening a session on a validated input keeps the invariant. -/
theorem Reader.Ok.opened {cap : Nat} {r : Reader} (h : r.Ok cap) (hlen : r.len ≠ 0) (hvalid : r.firstInvalid = none) :
    Reader.Ok cap { r.close with act := true } :=
  ⟨h.1, h.2.1, Nat.zero_le _, Nat.zero_le _, fun _ => rfl, by simp,
    fun _ => ⟨Nat.pos_of_ne_zero hlen, Reader.isAlphabet_of_firstInvalid_eq_none hvalid⟩, by simp⟩

/-- Reads keep the reader's invariant. -/
theorem Reader.Ok.getBits {cap n : Nat} {r r' : Reader} {bs : List Bool} (h : r.Ok cap) (hact : r.act = true)
    (hn : n ≤ r.avail) (hread : r.getBits n = some (bs, r')) : r'.Ok cap := by
  obtain ⟨bs', r'', hread', -, -, hok, -⟩ := getBits_spec cap n r h hact hn
  rw [hread] at hread'
  cases hread'
  exact hok

theorem State.Inv.setTracker {s : State} (h : s.Inv) (c : Chan) {t : Tracker} (ht : t.Ok) : (s.setTracker c t).Inv := by
  obtain ⟨hcfg, hw, hroom, hr, hW, hR⟩ := h
  cases c
  · exact ⟨hcfg, hw, hroom, hr, ht, hR⟩
  · exact ⟨hcfg, hw, hroom, hr, hW, ht⟩

/-- A command that succeeds keeps the invariant. -/
theorem Succeeds.inv {i : Instr} {s s1 : State} (h : Succeeds i s s1) (hwf : i.wellFormed = true) (hs : s.Inv) : s1.Inv := by
  obtain ⟨hcfg, hw, hroom, hr, hW, hR⟩ := hs
  cases i with
  | nop | wtRead | symEnc | rev16 => exact h ▸ ⟨hcfg, hw, hroom, hr, hW, hR⟩
  | symDec u => exact h.1 ▸ ⟨hcfg, hw, hroom, hr, hW, hR⟩
  | status clr => cases clr <;> (cases h; exact ⟨hcfg, hw, hroom, hr, hW, hR⟩)
  | wInit => cases h; exact ⟨hcfg, Writer.ok_empty, Nat.zero_le _, hr, hW, hR⟩
  | wBits n v =>
    obtain ⟨rfl, hfits⟩ := h
    exact ⟨hcfg, hw.putBits _, (putBits_out_length hw _ v).trans_le hfits, hr, hW, hR⟩
  | wCode v =>
    obtain ⟨rfl, hfits⟩ := h
    exact ⟨hcfg, hw.putBits _, (putBits_out_length hw _ v).trans_le hfits, hr, hW, hR⟩
  | wFlush =>
    rcases h with ⟨-, rfl⟩ | ⟨hfits, -, rfl⟩ | ⟨hfits, -, rfl⟩
    · exact ⟨hcfg, hw, hroom, hr, hW, hR⟩
    · exact ⟨hcfg, hw.append _, by simpa using hfits, hr, hW, hR⟩
    · exact ⟨hcfg, (hw.append _).emptied, by simpa using hfits, hr, hW, hR⟩
  | rStart =>
    obtain ⟨rfl, hlen, hvalid⟩ := h
    exact ⟨hcfg, hw, hroom, hr.opened hlen hvalid, hW, hR⟩
  | rBits n =>
    obtain ⟨hact, hn, bs, r', hread, rfl⟩ := h
    exact ⟨hcfg, hw, hroom, hr.getBits hact hn hread, hW, hR⟩
  | rCode =>
    obtain ⟨hact, hn, bs, r', hread, rfl⟩ := h
    exact ⟨hcfg, hw, hroom, hr.getBits hact hn hread, hW, hR⟩
  | wtInit c n e =>
    cases h
    exact State.Inv.setTracker ⟨hcfg, hw, hroom, hr, hW, hR⟩ c (of_decide_eq_true hwf)
  | wtStep c =>
    obtain ⟨t, g, hstep, rfl⟩ := h
    have hok : (s.tracker c).Ok := by cases c <;> assumption
    exact State.Inv.setTracker ⟨hcfg, hw, hroom, hr, hW, hR⟩ c (hok.step hstep)
  | reserved x => exact h.elim

/-- A command that goes on keeps the invariant: a raise changes no register but the sticky bits and the closed session. -/
theorem exec_inv {i : Instr} {s t : State} (h : exec i s = .next t) (hwf : i.wellFormed = true) (hs : s.Inv) : t.Inv := by
  rcases exec_cases h with ⟨s1, d, hsucceeds, rfl⟩ | ⟨e, d, rfl⟩
  · exact hsucceeds.inv hwf hs
  · obtain ⟨hcfg, hw, hroom, hr, hW, hR⟩ := hs
    rw [raiseBase_eq]
    refine ⟨hcfg, hw, hroom, ?_, hW, hR⟩
    show Reader.Ok s.cfg.inCap (if i = .rStart then s.r.close else s.r)
    split
    · exact hr.close
    · exact hr

/-- R59: a load leaves the reader closed, with the loaded units in a buffer of the same length. -/
theorem Reader.Ok.load {cap : Nat} {r : Reader} (h : r.Ok cap) {us : List CodeUnit} (hus : us.length ≤ cap) :
    Reader.Ok cap { r.close with buf := us ++ r.buf.drop us.length, len := us.length } := by
  refine ⟨?_, hus, Nat.zero_le _, Nat.zero_le _, fun _ => rfl, fun _ => ⟨rfl, rfl, rfl⟩, by simp, by simp⟩
  rw [List.length_append, List.length_drop, h.1]
  omega

/-- Settles O37: the commands keep the invariant, and so does each of the other host actions. -/
theorem everyStepKeepsTheInvariant : Obligations.EveryStepKeepsTheInvariant := by
  intro s t hs hstep
  obtain ⟨hcfg, hw, hroom, hr, hW, hR⟩ := id hs
  rcases step_cases hstep with ⟨-, rfl⟩ | ⟨a, rest, -, hact⟩
  · exact hs
  · rcases hact with ⟨w, i, rfl, hd, hexec⟩ | ⟨w, e, rfl, -, rfl⟩ | ⟨us, rfl, hus, rfl⟩ | ⟨k, rfl, -, rfl⟩ | ⟨rfl, rfl⟩
    · exact exec_inv hexec (encodeOfDecodeIsTheWord w i hd).1 hs
    · exact hs
    · exact ⟨hcfg, hw, hroom, hr.load hus, hW, hR⟩
    · obtain ⟨hpos, hacc, hout⟩ := hw
      exact ⟨hcfg, ⟨hpos, hacc, fun u hu => hout u (List.mem_of_mem_drop hu)⟩,
        (s.w.out.drop_sublist k).length_le.trans hroom, hr, hW, hR⟩
    · exact State.powerOn_inv hcfg s.freeCtr

end Sys2Proof.Machine

/-! The two sides of the block: a command of one side reads and changes that side alone (00_scope.md R5; 10_state.md R27;
60_exceptions.md R191). -/

namespace Sys2Proof.Machine

/-! ### The trackers -/

/-- The commands of the tracker of `c` (R150 to R153). -/
def IsTrackerCommand (c : Chan) (i : Instr) : Prop := (∃ n e, i = .wtInit c n e) ∨ i = .wtStep c ∨ ∃ f, i = .wtRead c f

/-- R150 to R153: the tracker decides what its commands do to it and what they answer. -/
theorem exec_trackerCommand {c : Chan} {i : Instr} (hi : IsTrackerCommand c i) (s : State) :
    ∃ (T : Tracker) (f : BitVec 6 → BitVec 6) (x : Response), ∀ s', s.tracker c = s'.tracker c →
      exec i s' = .next { s'.setTracker c T with sticky := f s'.sticky, results := s'.results ++ [.response x] } := by
  have hkeeps : ∀ s' : State, s'.setTracker c (s'.tracker c) = s' := fun s' => by cases c <;> rfl
  rcases hi with ⟨n, e, rfl⟩ | rfl | ⟨fld, rfl⟩
  · exact ⟨⟨n, e⟩, id, ⟨0#4, 0#32⟩, fun s' _ => by cases c <;> rfl⟩
  · cases hstep : (s.tracker c).step with
    | none =>
      refine ⟨s.tracker c, (· ||| Err.widthOverflow.stickyMask), ⟨4#4, 32#32⟩, fun s' hsame => ?_⟩
      rw [exec, execWtStep, ← hsame, hstep, hsame, hkeeps]
      rfl
    | some p =>
      refine ⟨p.1, id, ⟨0#4, (BitVec.ofBool p.2).setWidth 32⟩, fun s' hsame => ?_⟩
      rw [exec_wtStep_of_some (hsame ▸ hstep)]
      cases c <;> rfl
  · refine ⟨s.tracker c, id, ⟨0#4, if fld = .nb then (s.tracker c).nb.setWidth 32 else (s.tracker c).ei⟩, fun s' hsame => ?_⟩
    rw [hsame, hkeeps]
    cases fld <;> rfl

/-! ### The writer side -/

/-- What a command of the writer side leaves of `s`: its writer, its tracker, its change to the sticky bits, its response. -/
def State.writerDone (s : State) (w : Writer) (T : Tracker) (f : BitVec 6 → BitVec 6) (x : Response) : State :=
  { s with w := w, wtW := T, sticky := f s.sticky, results := s.results ++ [.response x] }

/-- `s'` has the parameters and the writer side of `s`. -/
def SameWriterSide (s s' : State) : Prop := s.cfg = s'.cfg ∧ s.w = s'.w ∧ s.wtW = s'.wtW

/-- `m` reads of `s` no more than the parameters and the writer side, and changes no more than that side. -/
def OnWriterSide (m : State → Result) (s : State) : Prop :=
  ∃ w T f x, ∀ s', SameWriterSide s s' → m s' = .next (s'.writerDone w T f x)

/-- R112, R113: whether a write fits, and what it packs, is decided by the writer and `P_OUT_CAP`. -/
theorem onWriterSide_writeCode (n : Nat) (v : Data) (s : State) : OnWriterSide (writeCode n v) s := by
  rcases Nat.lt_or_ge s.cfg.outCap (s.w.out.length + s.w.emits n) with hfull | hfits
  · refine ⟨s.w, s.wtW, (· ||| Err.outputOverflow.stickyMask), ⟨3#4, BitVec.ofNat 32 (s.w.emits n)⟩, ?_⟩
    rintro ⟨⟩ ⟨rfl, rfl, rfl⟩
    exact writeCode_overflows hfull
  · refine ⟨s.w.putBits (codeBits n v), s.wtW, id, ⟨0#4, BitVec.ofNat 32 (s.w.emits n)⟩, ?_⟩
    rintro ⟨⟩ ⟨rfl, rfl, rfl⟩
    exact writeCode_fits hfits

/-- R114: the four cases of a flush. -/
theorem wFlush_cases (s : State) :
    (s.w.pos = 0#3 ∧ s.cfg.flushEmpty = .emitNone) ∨
    (s.w.pos = 0#3 ∧ s.cfg.flushEmpty = .zeroSymbol ∧ s.w.out.length + 1 ≤ s.cfg.outCap) ∨
    (s.w.pos ≠ 0#3 ∧ s.w.out.length + 1 ≤ s.cfg.outCap) ∨
    ((s.w.pos ≠ 0#3 ∨ s.cfg.flushEmpty = .zeroSymbol) ∧ s.cfg.outCap < s.w.out.length + 1) := by
  rcases Nat.lt_or_ge s.cfg.outCap (s.w.out.length + 1) with hfull | hroom
  · cases hmode : s.cfg.flushEmpty <;> by_cases hpos : s.w.pos = 0#3 <;> simp [hpos, hfull]
  · cases hmode : s.cfg.flushEmpty <;> by_cases hpos : s.w.pos = 0#3 <;> simp [hpos, hroom]

/-- R114: so it is with a flush. -/
theorem onWriterSide_wFlush (s : State) : OnWriterSide (exec .wFlush) s := by
  rcases wFlush_cases s with ⟨hpos, hmode⟩ | ⟨hpos, hmode, hroom⟩ | ⟨hpos, hroom⟩ | ⟨hemits, hfull⟩
  · refine ⟨s.w, s.wtW, id, ⟨0#4, 0#32⟩, ?_⟩
    rintro ⟨⟩ ⟨rfl, rfl, rfl⟩
    exact exec_wFlush_emitNone hpos hmode
  · refine ⟨s.w.append (symbolFor 0#6), s.wtW, id, ⟨0#4, 1#32⟩, ?_⟩
    rintro ⟨⟩ ⟨rfl, rfl, rfl⟩
    exact exec_wFlush_zeroSymbol hpos hmode hroom
  · refine ⟨⟨0#6, 0#3, s.w.out ++ [symbolFor s.w.padded]⟩, s.wtW, id, ⟨0#4, 1#32⟩, ?_⟩
    rintro ⟨⟩ ⟨rfl, rfl, rfl⟩
    exact exec_wFlush_of_held hpos hroom
  · refine ⟨s.w, s.wtW, (· ||| Err.outputOverflow.stickyMask), ⟨3#4, 1#32⟩, ?_⟩
    rintro ⟨⟩ ⟨rfl, rfl, rfl⟩
    exact exec_wFlush_overflows hemits hfull

theorem onWriterSide_trackerCommand {i : Instr} (hi : IsTrackerCommand .w i) (s : State) : OnWriterSide (exec i) s := by
  obtain ⟨T, f, x, hexec⟩ := exec_trackerCommand hi s
  refine ⟨s.w, T, f, x, ?_⟩
  rintro s' ⟨-, hw, hT⟩
  rw [hexec s' hT, hw]
  rfl

/-- R5, R27: every command of the writer side keeps to it. -/
theorem onWriterSide_exec {i : Instr} (h : writerSide i = true) (s : State) : OnWriterSide (exec i) s := by
  match i, h with
  | .wInit, _ =>
    refine ⟨⟨0#6, 0#3, []⟩, s.wtW, id, ⟨0#4, 0#32⟩, ?_⟩
    rintro ⟨⟩ ⟨rfl, rfl, rfl⟩
    rfl
  | .wBits n v, _ => exact onWriterSide_writeCode n.toNat v s
  | .wCode v, _ =>
    obtain ⟨w, T, f, x, hwrite⟩ := onWriterSide_writeCode s.wtW.nb.toNat v s
    refine ⟨w, T, f, x, fun s' hsame => ?_⟩
    rw [exec, execWCode, ← hsame.2.2]
    exact hwrite s' hsame
  | .wFlush, _ => exact onWriterSide_wFlush s
  | .wtInit .w n e, _ => exact onWriterSide_trackerCommand (.inl ⟨n, e, rfl⟩) s
  | .wtStep .w, _ => exact onWriterSide_trackerCommand (.inr (.inl rfl)) s
  | .wtRead .w f, _ => exact onWriterSide_trackerCommand (.inr (.inr ⟨f, rfl⟩)) s

/-! ### The reader side -/

/-- What a command of the reader side leaves of `s`. -/
def State.readerDone (s : State) (r : Reader) (T : Tracker) (f : BitVec 6 → BitVec 6) (x : Response) : State :=
  { s with r := r, wtR := T, sticky := f s.sticky, results := s.results ++ [.response x] }

/-- `s'` has the parameters and the reader side of `s`. -/
def SameReaderSide (s s' : State) : Prop := s.cfg = s'.cfg ∧ s.r = s'.r ∧ s.wtR = s'.wtR

/-- `m` reads of `s` no more than the parameters and the reader side, and changes no more than that side. -/
def OnReaderSide (m : State → Result) (s : State) : Prop :=
  ∃ r T f x, ∀ s', SameReaderSide s s' → m s' = .next (s'.readerDone r T f x)

/-- R132: R_START with nothing loaded. -/
theorem exec_rStart_empty {s : State} (h : s.r.len = 0) :
    exec .rStart s = .next (State.raise { s with r := s.r.close } .invalidInput 0xFFFFFFFF#32) := if_pos h

/-- R132: R_START that finds an invalid cell. -/
theorem exec_rStart_invalid {s : State} {j : Nat} (hlen : s.r.len ≠ 0) (h : s.r.firstInvalid = some j) :
    exec .rStart s = .next (State.raise { s with r := s.r.close } .invalidInput (BitVec.ofNat 32 j)) := by
  have hclosed : s.r.close.firstInvalid = some j := h
  refine (if_neg hlen).trans ?_
  rw [hclosed]

/-- R132: R_START that finds none. -/
theorem exec_rStart_valid {s : State} (hlen : s.r.len ≠ 0) (h : s.r.firstInvalid = none) :
    exec .rStart s = .next (State.respond { s with r := { s.r.close with act := true } } (BitVec.ofNat 32 s.r.len)) := by
  have hclosed : s.r.close.firstInvalid = none := h
  refine (if_neg hlen).trans ?_
  rw [hclosed]
  rfl

/-- R132: what R_START finds is decided by the reader. -/
theorem onReaderSide_rStart (s : State) : OnReaderSide (exec .rStart) s := by
  by_cases hlen : s.r.len = 0
  · refine ⟨s.r.close, s.wtR, (· ||| Err.invalidInput.stickyMask), ⟨1#4, 0xFFFFFFFF#32⟩, ?_⟩
    rintro ⟨⟩ ⟨rfl, rfl, rfl⟩
    exact exec_rStart_empty hlen
  cases hfirst : s.r.firstInvalid with
  | some j =>
    refine ⟨s.r.close, s.wtR, (· ||| Err.invalidInput.stickyMask), ⟨1#4, BitVec.ofNat 32 j⟩, ?_⟩
    rintro ⟨⟩ ⟨rfl, rfl, rfl⟩
    exact exec_rStart_invalid hlen hfirst
  | none =>
    refine ⟨{ s.r.close with act := true }, s.wtR, id, ⟨0#4, BitVec.ofNat 32 s.r.len⟩, ?_⟩
    rintro ⟨⟩ ⟨rfl, rfl, rfl⟩
    exact exec_rStart_valid hlen hfirst

/-- R133: a read whose bits are `bs`. -/
theorem readCode_of_getBits {n : Nat} {s : State} {bs : List Bool} {r' : Reader} (hact : s.r.act = true) (hn : n ≤ s.r.avail)
    (hread : s.r.getBits n = some (bs, r')) :
    readCode n s = .next ({ s with r := r' }.respond (BitVec.ofNat 32 (valueOfBits bs))) := by
  simp [readCode, hact, Nat.not_lt.2 hn, hread]

/-- R133, R134: a read that goes on is decided by the reader. -/
theorem onReaderSide_readCode {n : Nat} {s t : State} (h : readCode n s = .next t) : OnReaderSide (readCode n) s := by
  rcases readCode_cases h with ⟨hact, -⟩ | ⟨hact, hshort, -⟩ | ⟨hact, hn, bs, r', hread, -⟩
  · refine ⟨s.r, s.wtR, (· ||| Err.notActive.stickyMask), ⟨6#4, 0#32⟩, ?_⟩
    rintro ⟨⟩ ⟨rfl, rfl, rfl⟩
    exact readCode_notActive hact
  · refine ⟨s.r, s.wtR, (· ||| Err.truncated.stickyMask), ⟨2#4, BitVec.ofNat 32 s.r.avail⟩, ?_⟩
    rintro ⟨⟩ ⟨rfl, rfl, rfl⟩
    exact readCode_truncated hact hshort
  · refine ⟨r', s.wtR, id, ⟨0#4, BitVec.ofNat 32 (valueOfBits bs)⟩, ?_⟩
    rintro s' ⟨-, hr, hT⟩
    rw [readCode_of_getBits (hr ▸ hact) (hr ▸ hn) (hr ▸ hread), hT]
    rfl

theorem onReaderSide_trackerCommand {i : Instr} (hi : IsTrackerCommand .r i) (s : State) : OnReaderSide (exec i) s := by
  obtain ⟨T, f, x, hexec⟩ := exec_trackerCommand hi s
  refine ⟨s.r, T, f, x, ?_⟩
  rintro s' ⟨-, hr, hT⟩
  rw [hexec s' hT, hr]
  rfl

/-- R5, R27: every command of the reader side that goes on keeps to it. -/
theorem onReaderSide_exec {i : Instr} {s t : State} (hside : readerSide i = true) (h : exec i s = .next t) :
    OnReaderSide (exec i) s := by
  match i, hside with
  | .rStart, _ => exact onReaderSide_rStart s
  | .rBits n, _ => exact onReaderSide_readCode h
  | .rCode, _ =>
    obtain ⟨r, T, f, x, hread⟩ := onReaderSide_readCode h
    refine ⟨r, T, f, x, fun s' hsame => ?_⟩
    rw [exec, execRCode, ← hsame.2.2]
    exact hread s' hsame
  | .wtInit .r n e, _ => exact onReaderSide_trackerCommand (.inl ⟨n, e, rfl⟩) s
  | .wtStep .r, _ => exact onReaderSide_trackerCommand (.inr (.inl rfl)) s
  | .wtRead .r f, _ => exact onReaderSide_trackerCommand (.inr (.inr ⟨f, rfl⟩)) s

/-- Settles O48: a command of one side puts the same values and answers the same wherever that side is the same. -/
theorem channelsDoNotInteract : Obligations.ChannelsDoNotInteract := by
  intro s s' t i hcfg h
  constructor
  · intro hside hw hT
    obtain ⟨w, T, f, x, hexec⟩ := onWriterSide_exec hside s
    rw [hexec s ⟨rfl, rfl, rfl⟩] at h
    cases h
    exact ⟨_, x, hexec s' ⟨hcfg, hw, hT⟩, rfl, rfl, rfl, rfl, rfl, rfl⟩
  · intro hside hr hT
    obtain ⟨r, T, f, x, hexec⟩ := onReaderSide_exec hside h
    rw [hexec s ⟨rfl, rfl, rfl⟩] at h
    cases h
    exact ⟨_, x, hexec s' ⟨hcfg, hr, hT⟩, rfl, rfl, rfl, rfl, rfl, rfl⟩

end Sys2Proof.Machine

/-! What a write can end in, which actions complete, and how much a command moves (41_writer.md R115;
93_implementation_defined.md section 1; 20_memory.md R57; 60_exceptions.md R180; 70_reset_and_hazards.md R219). -/

namespace Sys2Proof.Machine

/-! ### Writes and flushes -/

/-- R112 to R114: a write or a flush appends to the writer and answers OK, or raises OutputOverflow. -/
theorem exec_write_cases {i : Instr} (h : isWrite i = true ∨ i = .wFlush) (s : State) :
    (∃ w d, exec i s = .next ({ s with w := w }.respond d)) ∨ ∃ d, exec i s = .next (s.raise .outputOverflow d) := by
  have hwrite (n : Nat) (v : Data) :
      (∃ w d, writeCode n v s = .next ({ s with w := w }.respond d)) ∨
      ∃ d, writeCode n v s = .next (s.raise .outputOverflow d) :=
    (writeCode_cases n v s).imp (fun hfits => ⟨_, _, hfits.2⟩) (fun hfull => ⟨_, hfull.2⟩)
  match i, h with
  | .wBits n v, _ => exact hwrite n.toNat v
  | .wCode v, _ => exact hwrite s.wtW.nb.toNat v
  | .wFlush, _ =>
    rcases wFlush_cases s with ⟨hpos, hmode⟩ | ⟨hpos, hmode, hroom⟩ | ⟨hpos, hroom⟩ | ⟨hemits, hfull⟩
    · exact .inl ⟨_, _, exec_wFlush_emitNone hpos hmode⟩
    · exact .inl ⟨_, _, exec_wFlush_zeroSymbol hpos hmode hroom⟩
    · exact .inl ⟨_, _, exec_wFlush_of_held hpos hroom⟩
    · exact .inr ⟨_, exec_wFlush_overflows hemits hfull⟩

/-- Settles O25: a write and a flush end in one of these two ways. -/
theorem writerRaisesOnlyOverflow : Obligations.WriterRaisesOnlyOverflow := by
  intro s i h
  rcases exec_write_cases h s with ⟨w, d, hexec⟩ | ⟨d, hexec⟩
  · exact ⟨_, 0#4, d, hexec, rfl, .inl rfl⟩
  · exact ⟨_, 3#4, d, hexec, rfl, .inr rfl⟩

/-- Settles O50: the refused attempt has changed nothing of the writer side, so the command does the same in both drained
states. -/
theorem overflowedWriteRetriesAfterADrain : Obligations.OverflowedWriteRetriesAfterADrain := by
  intro s t i d k hwrite hexec hanswer hk drained
  have hside : writerSide i = true := by
    match i, hwrite with
    | .wBits _ _, _ | .wCode _, _ | .wFlush, _ => rfl
  obtain ⟨e, hraise⟩ : ∃ e, t = s.raise .outputOverflow e := by
    rcases exec_write_cases hwrite s with ⟨w, d', hok⟩ | ⟨d', hraise⟩
    · rw [hok] at hexec
      cases hexec
      exact absurd (code_eq_of_append_response hanswer) (by decide)
    · rw [hraise] at hexec
      cases hexec
      exact ⟨d', rfl⟩
  obtain ⟨w, T, f, x, hretry⟩ := onWriterSide_exec hside (drained s)
  subst hraise
  exact ⟨_, _, x, hretry (drained _) ⟨rfl, rfl, rfl⟩, hretry (drained s) ⟨rfl, rfl, rfl⟩, rfl, rfl, rfl⟩

/-! ### Every action with a move completes -/

/-- R131: under the invariant a read meets no cell without a value. -/
theorem readCode_completes {s : State} (hok : s.r.Ok s.cfg.inCap) (n : Nat) : ∃ t, readCode n s = .next t := by
  cases hact : s.r.act with
  | false => exact ⟨_, readCode_notActive hact⟩
  | true =>
    rcases Nat.lt_or_ge s.r.avail n with hshort | hn
    · exact ⟨_, readCode_truncated hact hshort⟩
    · obtain ⟨bs, r', hread, -⟩ := readCode_delivers hok hact hn
      exact ⟨_, hread⟩

theorem OnWriterSide.completes {m : State → Result} {s : State} (h : OnWriterSide m s) : ∃ t, m s = .next t := by
  obtain ⟨w, T, f, x, hm⟩ := h
  exact ⟨_, hm s ⟨rfl, rfl, rfl⟩⟩

theorem OnReaderSide.completes {m : State → Result} {s : State} (h : OnReaderSide m s) : ∃ t, m s = .next t := by
  obtain ⟨r, T, f, x, hm⟩ := h
  exact ⟨_, hm s ⟨rfl, rfl, rfl⟩⟩

/-- Under the invariant every command goes on. -/
theorem exec_completes {s : State} (hs : s.Inv) (i : Instr) : ∃ t, exec i s = .next t := by
  obtain ⟨-, -, -, hr, -, -⟩ := hs
  cases i with
  | wInit | wBits | wCode | wFlush => exact (onWriterSide_exec rfl s).completes
  | rStart => exact (onReaderSide_rStart s).completes
  | rBits n => exact readCode_completes hr _
  | rCode => exact readCode_completes hr _
  | wtStep c =>
    obtain ⟨T, f, x, hexec⟩ := exec_trackerCommand (.inr (.inl rfl)) s
    exact ⟨_, hexec s rfl⟩
  | wtRead c f => cases f <;> exact ⟨_, rfl⟩
  | symDec u =>
    cases hvalue : valueFor u with
    | none => exact ⟨_, exec_symDec_of_none hvalue s⟩
    | some v => exact ⟨_, exec_symDec_of_some hvalue s⟩
  | nop | wtInit | symEnc | rev16 | status | reserved => exact ⟨_, rfl⟩

/-- R76: a word that does not decode raises. -/
theorem issue_of_decode_error {w : CmdWord} {e : Illegal} (h : decode w = .error e) (s : State) :
    issue w s = .next (s.raise .illegalCommand 0#32) := by
  rw [issue, h]

/-- So every ISSUE goes on. -/
theorem issue_completes {s : State} (hs : s.Inv) (w : CmdWord) : ∃ t, issue w s = .next t := by
  cases hd : decode w with
  | error e => exact ⟨_, issue_of_decode_error hd s⟩
  | ok i =>
    rw [issue_of_decode_ok hd]
    exact exec_completes hs i

/-- A step with an action pending performs it. -/
theorem step_of_pending {s : State} {a : HostAction} {rest : List HostAction} (h : s.pending = a :: rest) :
    step s = perform a { s with pending := rest } := by
  rw [step, nextAction, h]

/-- Settles O12: with nothing pending there is nothing to perform. -/
theorem idleBlockHoldsItsState : Obligations.IdleBlockHoldsItsState := by
  intro s h
  rw [step, nextAction, h]

/-- Settles O6: the first pending action is performed, and a word that decodes is executed. -/
theorem stepRunsTheDecodedCommand : Obligations.StepRunsTheDecodedCommand := by
  intro s a rest hp
  refine ⟨step_of_pending hp, ?_⟩
  rintro w i rfl hd
  rw [step_issue hp, issue_of_decode_ok hd]

/-- R59: a load of no more than `P_IN_CAP` units closes the session and puts them in front of the other cells. -/
theorem loadIn_of_le {us : List CodeUnit} {s : State} (h : us.length ≤ s.cfg.inCap) :
    loadIn us s =
      .next { s with r := { s.r.close with buf := us ++ s.r.buf.drop us.length, len := us.length } } :=
  if_neg (Nat.not_lt.2 h)

/-- R59: a longer load is refused. -/
theorem loadIn_of_lt {us : List CodeUnit} {s : State} (h : s.cfg.inCap < us.length) : loadIn us s = .refused .loadTooLong :=
  if_pos h

/-- Settles O39: commands complete under the invariant, and the other host actions where they have a move. -/
theorem everyActionWithAMoveCompletes : Obligations.EveryActionWithAMoveCompletes := by
  intro s hs hmove
  cases hp : s.pending with
  | nil => exact ⟨s, idleBlockHoldsItsState s hp⟩
  | cons a rest =>
    rw [step_of_pending hp]
    cases a with
    | issue w => exact issue_completes (s := { s with pending := rest }) hs w
    | loadIn us => exact ⟨_, loadIn_of_le (hmove _ rest hp)⟩
    | drainOut k => exact ⟨_, drainOut_of_le (hmove _ rest hp)⟩
    | reset => exact ⟨_, rfl⟩

/-- Settles O40: an ISSUE completes under the invariant, and each way it can end is one response. -/
theorem everyCommandGivesOneResponse : Obligations.EveryCommandGivesOneResponse := by
  intro s w hs
  obtain ⟨t, ht⟩ := issue_completes hs w
  rcases issue_cases ht with ⟨s1, d, hresults, rfl⟩ | ⟨e, d, rfl⟩
  · exact ⟨_, 0#4, d, ht, congrArg (· ++ _) hresults, Nat.zero_le _⟩
  · obtain ⟨-, hcode, -⟩ := e.stickyMask_eq
    exact ⟨_, e.code, d, ht, rfl, hcode⟩

/-! ### How much a command moves -/

/-- R57: a write of at most 32 bits appends at most six units. -/
theorem putBits_out_le_six {w : Writer} (h : w.Ok) {n : Nat} (hn : n ≤ 32) (v : Data) :
    ∃ us, (w.putBits (codeBits n v)).out = w.out ++ us ∧ us.length ≤ 6 := by
  obtain ⟨-, -, -, us, hout, hcount⟩ := putBits_spec (codeBits n v) w h
  have hpos := h.1
  rw [codeBits_length] at hcount
  exact ⟨us, hout, by omega⟩

/-- R57: so do all writes and flushes, an OutputOverflow appending nothing. -/
theorem exec_write_out_le_six {i : Instr} {s t : State} (hs : s.Inv) (hwf : i.wellFormed = true)
    (hwrite : isWrite i = true ∨ i = .wFlush) (h : exec i s = .next t) :
    ∃ us, t.w.out = s.w.out ++ us ∧ us.length ≤ 6 := by
  obtain ⟨-, hw, -, -, hW, -⟩ := hs
  rcases exec_cases h with ⟨s1, d, hsucceeds, rfl⟩ | ⟨e, d, rfl⟩
  · match i, hwrite with
    | .wBits n v, _ =>
      obtain ⟨rfl, -⟩ := hsucceeds
      exact putBits_out_le_six hw (of_decide_eq_true hwf) v
    | .wCode v, _ =>
      obtain ⟨rfl, -⟩ := hsucceeds
      exact putBits_out_le_six hw hW v
    | .wFlush, _ =>
      rcases hsucceeds with ⟨-, rfl⟩ | ⟨-, -, rfl⟩ | ⟨-, -, rfl⟩
      · exact ⟨[], by simp⟩
      · exact ⟨_, rfl, by simp⟩
      · exact ⟨_, rfl, by simp⟩
  · exact ⟨[], by simp⟩

/-- R57: a read of at most 32 bits unpacks at most six cells, a read that raises none. -/
theorem readCode_idx_le {n : Nat} {s t : State} (hok : s.r.Ok s.cfg.inCap) (hn : n ≤ 32) (h : readCode n s = .next t) :
    s.r.idx ≤ t.r.idx ∧ t.r.idx ≤ s.r.idx + 6 := by
  rcases readCode_cases h with ⟨-, rfl⟩ | ⟨-, -, rfl⟩ | ⟨hact, hle, bs, r', hread, -, -, -, rfl⟩
  · simp
  · simp
  · obtain ⟨-, -, -, hforward⟩ := getBits_frame hread
    obtain ⟨bs', r'', hread', -, -, hok', -, hlen, -, havail, hzero, hrem⟩ := getBits_spec s.cfg.inCap n s.r hok hact hle
    rw [hread] at hread'
    cases hread'
    have hidx := hok'.2.2.1
    simp only [Reader.avail] at havail
    refine ⟨hforward, ?_⟩
    show r'.idx ≤ s.r.idx + 6
    by_cases h0 : n = 0
    · rw [hzero h0]
      omega
    · have := hrem h0
      omega

/-- Settles O44: the two bounds come from the width, which is at most 32, and the bits already held. -/
theorem commandsMoveAtMostSixUnits : Obligations.CommandsMoveAtMostSixUnits := by
  intro s t i hs hwf h
  refine ⟨fun hwrite => exec_write_out_le_six hs hwf hwrite h, ?_⟩
  obtain ⟨-, -, -, hr, -, hR⟩ := hs
  rintro (⟨n, rfl⟩ | rfl)
  · exact readCode_idx_le hr (of_decide_eq_true hwf) h
  · exact readCode_idx_le hr hR h

end Sys2Proof.Machine

/-! Single commands and actions: NOP, the pure commands, R_START and LOAD_IN (44_control.md R170; 20_memory.md R59, R65;
42_reader.md R132; 40_alphabet.md R96). -/

namespace Sys2Proof.Machine

/-- Settles O16: a symbol reads back as its value, and each of the 64 units is looked at. -/
theorem alphabetUnitsAreDistinctAndSafe : Obligations.AlphabetUnitsAreDistinctAndSafe := by
  refine ⟨fun v v' h => ?_, by decide⟩
  have hvalue : valueFor (symbolFor v) = valueFor (symbolFor v') := congrArg valueFor h
  rw [valueFor_symbolFor, valueFor_symbolFor] at hvalue
  exact Option.some.inj hvalue

/-! ### Commands that only answer -/

/-- R170: NOP answers OK 0. -/
theorem exec_nop (s : State) : exec .nop s = .next (s.answered 0#4 0#32) := rfl

/-- Settles O34: the effect is the command's meaning, and its row tests every field below OP for zero. -/
theorem nopChangesNothing : Obligations.NopChangesNothing :=
  ⟨exec_nop, issuedWords_of_decode_ok_iff (by simp [decodeFields, accept_eq_ok, and_assoc, and_left_comm])⟩

/-- `i` answers OK with `d` in `s` and changes nothing, whatever the host has got before. -/
def AnswersOnly (i : Instr) (s : State) (d : Data) : Prop :=
  ∀ got : List HostResult, exec i { s with results := got } = .next (State.answered { s with results := got } 0#4 d)

/-- R65: a command that only answers does so again. -/
theorem AnswersOnly.repeats {i : Instr} {s t : State} {d d' : Data} (h : AnswersOnly i s d') (hexec : exec i s = .next t)
    (hanswer : t.results = s.results ++ [.response ⟨0#4, d⟩]) :
    t = { s with results := t.results } ∧ exec i t = .next { t with results := t.results ++ [.response ⟨0#4, d⟩] } := by
  rw [(h s.results : exec i s = _)] at hexec
  cases hexec
  cases List.append_cancel_left hanswer
  exact ⟨rfl, h _⟩

/-- Settles O49: each of these commands only answers, but for a SYM_DEC of a unit without a value, which does not answer OK. -/
theorem pureCommandsRepeatAndChangeNothing : Obligations.PureCommandsRepeatAndChangeNothing := by
  intro s t i d hpure hexec hanswer
  have hrepeats (d' : Data) (h : AnswersOnly i s d') := h.repeats hexec hanswer
  rcases hpure with rfl | ⟨v, rfl⟩ | ⟨u, rfl⟩ | ⟨x, rfl⟩ | ⟨c, f, rfl⟩ | rfl
  · exact hrepeats _ fun _ => exec_nop _
  · exact hrepeats _ fun _ => exec_symEnc v _
  · cases hvalue : valueFor u with
    | some v => exact hrepeats _ fun _ => exec_symDec_of_some hvalue _
    | none =>
      rw [exec_symDec_of_none hvalue] at hexec
      cases hexec
      exact absurd (code_eq_of_append_response hanswer) (by decide)
  · exact hrepeats _ fun _ => exec_rev16 x _
  · cases f
    · exact hrepeats ((s.tracker c).nb.setWidth 32) fun _ => by cases c <;> rfl
    · exact hrepeats (s.tracker c).ei fun _ => by cases c <;> rfl
  · exact hrepeats s.stat fun _ => exec_status false _

/-! ### R_START -/

/-- R25: the loaded cells are those of IN below L. -/
theorem Reader.loaded_getElem? {r : Reader} {k : Nat} (h : k < r.len) : r.loaded[k]? = r.buf[k]? :=
  List.getElem?_take_of_lt h

/-- R132: the first invalid cell is the lowest loaded cell that is no alphabet unit. -/
theorem Reader.firstInvalid_eq_some {r : Reader} {j : Nat} {u : CodeUnit} (hj : j < r.len) (hu : r.buf[j]? = some u)
    (hbad : isAlphabet u = false) (hgood : ∀ k, k < j → ∃ u', r.buf[k]? = some u' ∧ isAlphabet u' = true) :
    r.firstInvalid = some j := by
  rw [← Reader.loaded_getElem? hj] at hu
  obtain ⟨hlt, hget⟩ := List.getElem?_eq_some_iff.1 hu
  refine List.findIdx?_eq_some_iff_getElem.2 ⟨hlt, by simpa [hget] using hbad, fun k hk => ?_⟩
  obtain ⟨u', hu', hgood'⟩ := hgood k hk
  rw [← Reader.loaded_getElem? (hk.trans hj)] at hu'
  obtain ⟨hlt', hget'⟩ := List.getElem?_eq_some_iff.1 hu'
  simpa [hget', Option.isSome_iff_ne_none] using hgood'

/-- R132: there is no invalid cell where every loaded cell is an alphabet unit. -/
theorem Reader.firstInvalid_eq_none {r : Reader} (h : ∀ k, k < r.len → ∃ u, r.buf[k]? = some u ∧ isAlphabet u = true) :
    r.firstInvalid = none := by
  refine List.findIdx?_eq_none_iff.2 fun u hu => ?_
  obtain ⟨k, hk, rfl⟩ := List.mem_take_iff_getElem.1 hu
  obtain ⟨u', hu', hgood⟩ := h k (by omega)
  rw [List.getElem?_eq_getElem (by omega)] at hu'
  cases hu'
  simpa [Option.isSome_iff_ne_none] using hgood

/-- Settles O26: the three outcomes of R_START, and its row tests every field below OP for zero. -/
theorem rStartValidatesTheWholeInput : Obligations.RStartValidatesTheWholeInput := by
  refine ⟨fun s => ⟨exec_rStart_empty, fun j u hj hu hbad hgood => ?_, fun hlen hgood => ?_⟩,
    issuedWords_of_decode_ok_iff (by simp [decodeFields, accept_eq_ok, and_assoc, and_left_comm])⟩
  · exact exec_rStart_invalid (Nat.ne_zero_of_lt hj) (Reader.firstInvalid_eq_some hj hu hbad hgood)
  · exact exec_rStart_valid hlen.ne' (Reader.firstInvalid_eq_none hgood)

/-! ### LOAD_IN -/

/-- Settles O8: the cells are the loaded units and then the old ones, and a read finds no session open. -/
theorem loadInWritesCellsAndEndsTheSession : Obligations.LoadInWritesCellsAndEndsTheSession := by
  intro s us
  constructor
  · intro hus hbuf
    refine ⟨_, us ++ s.r.buf.drop us.length, loadIn_of_le hus, rfl, ?_, fun j => ?_, fun i hread => ?_⟩
    · rw [List.length_append, List.length_drop, hbuf]
      omega
    · rw [List.getElem?_append, List.getElem?_drop]
      split
      · rfl
      · rw [Nat.add_sub_cancel' (by omega)]
    · have hclosed (n : Nat) := readCode_notActive (n := n)
        (s := { s with r := { buf := us ++ s.r.buf.drop us.length, len := us.length, act := false, idx := 0, cur := 0#6, rem := 0#3 } })
        rfl
      rcases hread with ⟨n, rfl⟩ | rfl
      · exact hclosed n.toNat
      · exact hclosed s.wtR.nb.toNat
  · rintro hus ⟨t, ht⟩
    rw [perform, loadIn_of_lt hus] at ht
    cases ht

end Sys2Proof.Machine

/-! Sequences of writes (41_writer.md R115). -/

namespace Sys2Proof.Machine

/-- PutBits of two sequences are the PutBits of the one after the other. -/
theorem putBits_append (w : Writer) (bs cs : List Bool) : w.putBits (bs ++ cs) = (w.putBits bs).putBits cs :=
  List.foldl_append

/-- R112, R113: a write that fits is the PutBits of its bits. -/
theorem exec_write_fits {i : Instr} {s : State} (hi : isWrite i = true)
    (hfits : s.w.out.length + (s.w.pos.toNat + (writtenBits s.wtW.nb i).length) / 6 ≤ s.cfg.outCap) :
    ∃ got, exec i s = .next { s with w := s.w.putBits (writtenBits s.wtW.nb i), results := got } := by
  match i, hi with
  | .wBits n v, _ => exact ⟨_, writeCode_fits (by simpa [writtenBits, Writer.emits] using hfits)⟩
  | .wCode v, _ => exact ⟨_, writeCode_fits (by simpa [writtenBits, Writer.emits] using hfits)⟩

/-- R115: writes that fit in all are the PutBits of all their bits; apart from the answers the rest is as in `s`. -/
theorem execAll_writes_fit {is : List Instr} {s : State} (hok : s.w.Ok) (his : ∀ i ∈ is, isWrite i = true)
    (hfits : s.w.out.length + (s.w.pos.toNat + (is.flatMap (writtenBits s.wtW.nb)).length) / 6 ≤ s.cfg.outCap) :
    ∃ got, execAll is s = .next { s with w := s.w.putBits (is.flatMap (writtenBits s.wtW.nb)), results := got } := by
  induction is generalizing s with
  | nil => exact ⟨s.results, rfl⟩
  | cons i is ih =>
    obtain ⟨hi, his⟩ := List.forall_mem_cons.1 his
    obtain ⟨hok', -, hpos, us, hout, hcount⟩ := putBits_spec (writtenBits s.wtW.nb i) s.w hok
    rw [List.flatMap_cons, List.length_append] at hfits
    obtain ⟨got, hexec⟩ := exec_write_fits hi (s := s) (by omega)
    obtain ⟨got', hrest⟩ := ih (s := { s with w := s.w.putBits (writtenBits s.wtW.nb i), results := got }) hok' his
      (by simp only [hout, List.length_append, hcount, hpos]; omega)
    refine ⟨got', ?_⟩
    rw [execAll, hexec, List.flatMap_cons, putBits_append]
    exact hrest

/-- A writer that holds no bits has all its stream in OUT. -/
theorem Writer.stream_of_pos_eq_zero {w : Writer} (h : w.pos = 0#3) : w.stream = unitBits w.out := by
  simp [Writer.stream, Writer.heldBits, h]

/-- R114: the bits of OUT after a flush of held bits are the stream and zeros up to a whole symbol. -/
theorem unitBits_flushed {w : Writer} (h : w.Ok) :
    unitBits (w.out ++ [symbolFor w.padded]) = w.stream ++ List.replicate (6 - w.pos.toNat) false := by
  rw [unitBits_append, unitBits_symbolFor, symbolBits_padded w h, Writer.stream, List.append_assoc]

/-- R115 (a), (b): writes from an empty writer pack their bits. -/
theorem execAll_writes_pack {is : List Instr} {s : State} {bits : List Bool} (hempty : s.w = { acc := 0#6, pos := 0#3, out := [] })
    (his : ∀ i ∈ is, isWrite i = true) (hbits : is.flatMap (writtenBits s.wtW.nb) = bits)
    (hfits : bits.length / 6 ≤ s.cfg.outCap) :
    ∃ w got, execAll is s = .next { s with w := w, results := got } ∧ w.Ok ∧ w.out.length = bits.length / 6 ∧
      w.pos.toNat = bits.length % 6 ∧ w.stream = bits := by
  have hok : s.w.Ok := hempty ▸ Writer.ok_empty
  have hpos0 : s.w.pos.toNat = 0 := by rw [hempty]; rfl
  have hout0 : s.w.out = [] := by rw [hempty]
  have hstream0 : s.w.stream = [] := by rw [hempty]; rfl
  obtain ⟨got, hrun⟩ := execAll_writes_fit hok his (by simpa only [hbits, hpos0, hout0, List.length_nil, Nat.zero_add] using hfits)
  obtain ⟨hok', hstream, hpos, us, hout, hcount⟩ := putBits_spec bits s.w hok
  rw [hbits] at hrun
  rw [hstream0, List.nil_append] at hstream
  rw [hpos0, Nat.zero_add] at hpos hcount
  rw [hout0, List.nil_append] at hout
  exact ⟨_, got, hrun, hok', hout ▸ hcount, hpos, hstream⟩

/-- R114: with bits held and room, a flush leaves OUT with the stream padded to whole symbols. -/
theorem exec_wFlush_pads {s : State} (hok : s.w.Ok) (hpos : s.w.pos ≠ 0#3) (hroom : s.w.out.length + 1 ≤ s.cfg.outCap) :
    ∃ out got, exec .wFlush s = .next { s with w := { acc := 0#6, pos := 0#3, out := out }, results := got } ∧
      out.length = s.w.out.length + 1 ∧ (∀ u ∈ out, isAlphabet u = true) ∧
      unitBits out = s.w.stream ++ List.replicate (6 - s.w.pos.toNat) false :=
  ⟨_, _, exec_wFlush_of_held hpos hroom, by simp, (hok.append _).2.2, unitBits_flushed hok⟩

/-- Settles O24: the writes pack their bits, and a flush pads the last symbol. -/
theorem writeSequencesPackTheirBits : Obligations.WriteSequencesPackTheirBits := by
  intro s is hempty his bits T hfits
  obtain ⟨w, got, hrun, hok, hlength, hpos, hstream⟩ := execAll_writes_pack hempty his rfl hfits
  refine ⟨_, hrun, rfl, hok, hlength, hpos, hstream, fun hheld hroom => ?_⟩
  have hne : w.pos ≠ 0#3 := fun h0 => hheld (by rw [← hpos, h0]; rfl)
  have hcount : w.out.length + 1 = (T + 5) / 6 := by
    have hT : w.out.length = T / 6 := hlength
    omega
  obtain ⟨out, got', hflush, hout, halphabet, hunits⟩ :=
    exec_wFlush_pads (s := { s with w := w, results := got }) hok hne (hcount ▸ hroom)
  exact ⟨_, hflush, hout.trans hcount, halphabet, by rw [hunits, hstream, hpos]⟩

end Sys2Proof.Machine

/-! The cells of IN at index L and above are never read (10_state.md R25, R31). -/

namespace Sys2Proof.Machine

/-! ### Another buffer with the same live cells -/

def Reader.withBuf (r : Reader) (b : List CodeUnit) : Reader := { r with buf := b }

def State.withBuf (s : State) (b : List CodeUnit) : State := { s with r := s.r.withBuf b }

/-- `b` has the cells of IN below L, and as many cells in all. -/
def Reader.LiveIn (r : Reader) (b : List CodeUnit) : Prop :=
  b.length = r.buf.length ∧ ∀ j, j < r.len → b[j]? = r.buf[j]?

/-- The live cells stay live as long as IN and L do. -/
theorem Reader.LiveIn.of_same {r r' : Reader} {b : List CodeUnit} (h : r.LiveIn b) (hbuf : r'.buf = r.buf)
    (hlen : r'.len = r.len) : r'.LiveIn b := by
  rw [LiveIn, hbuf, hlen]
  exact h

theorem sameLiveCells_withBuf {s : State} {b : List CodeUnit} (h : s.r.LiveIn b) : SameLiveCells s (s.withBuf b) :=
  ⟨rfl, h.1, h.2⟩

theorem SameLiveCells.exists_withBuf {s s' : State} (h : SameLiveCells s s') : ∃ b, s' = s.withBuf b ∧ s.r.LiveIn b :=
  ⟨_, h.1, h.2⟩

/-- The loaded cells are live, so they are the same. -/
theorem Reader.LiveIn.loaded {r : Reader} {b : List CodeUnit} (h : r.LiveIn b) : (r.withBuf b).loaded = r.loaded := by
  apply List.ext_getElem?
  intro j
  rcases Nat.lt_or_ge j r.len with hj | hj
  · rw [Reader.loaded_getElem? hj, ← h.2 j hj]
    exact Reader.loaded_getElem? (r := r.withBuf b) hj
  · rw [List.getElem?_eq_none, List.getElem?_eq_none] <;> exact (List.length_take_le _ _).trans hj

/-- What a live cell unpacks to does not depend on the buffer (R131). -/
theorem unpack_withBuf {r : Reader} {b : List CodeUnit} (hlive : r.LiveIn b) (hidx : r.idx < r.len) :
    (r.withBuf b).unpack = r.unpack.map (·.withBuf b) := by
  have hcell : (r.withBuf b).buf[(r.withBuf b).idx]? = r.buf[r.idx]? := hlive.2 r.idx hidx
  simp only [Reader.unpack, hcell]
  cases r.buf[r.idx]? with
  | none => rfl
  | some u => cases hvalue : valueFor u <;> simp [hvalue, Reader.withBuf]

/-- A GetBit with a bit left unpacks a live cell, if any (R130, R131). -/
theorem getBit_withBuf {r : Reader} {b : List CodeUnit} (hlive : r.LiveIn b) (hav : 1 ≤ r.avail) :
    (r.withBuf b).getBit = r.getBit.map fun p => (p.1, p.2.withBuf b) := by
  have hrem : (r.withBuf b).rem = r.rem := rfl
  by_cases h0 : r.rem = 0#3
  · have hidx : r.idx < r.len := by
      simp [Reader.avail, h0] at hav
      omega
    simp only [Reader.getBit, hrem, h0, if_true, unpack_withBuf hlive hidx]
    cases r.unpack <;> rfl
  · simp only [Reader.getBit, hrem, h0, if_false]
    rfl

/-- So does every one of a sequence of GetBits with enough bits left. -/
theorem getBits_withBuf {cap n : Nat} {r : Reader} {b : List CodeUnit} (hok : r.Ok cap) (hact : r.act = true)
    (hlive : r.LiveIn b) (hav : n ≤ r.avail) :
    ∃ bs r', r.getBits n = some (bs, r') ∧ (r.withBuf b).getBits n = some (bs, r'.withBuf b) := by
  induction n generalizing r with
  | zero => exact ⟨[], r, rfl, rfl⟩
  | succ n ih =>
    obtain ⟨x, r1, hbit, -, hok1, hbuf, hlen, hact1, hav1, -⟩ := getBit_spec cap r hok hact (by omega)
    obtain ⟨bs, r2, hbits, hbits'⟩ := ih hok1 hact1 (hlive.of_same hbuf hlen) (by omega)
    refine ⟨x :: bs, r2, ?_, ?_⟩
    · simp [Reader.getBits, hbit, hbits]
    · simp [Reader.getBits, getBit_withBuf hlive (show 1 ≤ r.avail by omega), hbit, hbits']

/-! ### Commands -/

/-- `m` goes on from `s` with the buffer `b` as it goes on from `s`. -/
def IgnoresBuf (m : State → Result) (s : State) (b : List CodeUnit) : Prop :=
  ∀ t, m s = .next t → m (s.withBuf b) = .next (t.withBuf b)

theorem ignoresBuf_readCode {s : State} {b : List CodeUnit} (hok : s.r.Ok s.cfg.inCap) (hlive : s.r.LiveIn b) (n : Nat) :
    IgnoresBuf (readCode n) s b := by
  intro t h
  rcases readCode_cases h with ⟨hact, rfl⟩ | ⟨hact, hshort, rfl⟩ | ⟨hact, hn, bs, r', hread, -, -, -, rfl⟩
  · exact readCode_notActive hact
  · exact readCode_truncated hact hshort
  · obtain ⟨bs', r'', hread', hreadb⟩ := getBits_withBuf hok hact hlive hn
    rw [hread] at hread'
    cases hread'
    exact readCode_of_getBits hact hn hreadb

theorem ignoresBuf_rStart {s : State} {b : List CodeUnit} (hlive : s.r.LiveIn b) : IgnoresBuf (exec .rStart) s b := by
  intro t h
  have hfirst : (s.r.withBuf b).firstInvalid = s.r.firstInvalid := by
    rw [Reader.firstInvalid, hlive.loaded, Reader.firstInvalid]
  by_cases hlen : s.r.len = 0
  · rw [exec_rStart_empty hlen] at h
    cases h
    exact exec_rStart_empty hlen
  cases hcell : s.r.firstInvalid with
  | some j =>
    rw [exec_rStart_invalid hlen hcell] at h
    cases h
    exact exec_rStart_invalid hlen (hfirst.trans hcell)
  | none =>
    rw [exec_rStart_valid hlen hcell] at h
    cases h
    exact exec_rStart_valid hlen (hfirst.trans hcell)

/-- A command of the writer side reads no cell at all. -/
theorem OnWriterSide.ignoresBuf {m : State → Result} {s : State} (h : OnWriterSide m s) (b : List CodeUnit) :
    IgnoresBuf m s b := by
  intro t hm
  obtain ⟨w, T, f, x, hdone⟩ := h
  rw [hdone s ⟨rfl, rfl, rfl⟩] at hm
  cases hm
  exact hdone (s.withBuf b) ⟨rfl, rfl, rfl⟩

theorem ignoresBuf_trackerCommand {c : Chan} {i : Instr} (hi : IsTrackerCommand c i) (s : State) (b : List CodeUnit) :
    IgnoresBuf (exec i) s b := by
  intro t h
  have htracker : s.tracker c = (s.withBuf b).tracker c := by cases c <;> rfl
  obtain ⟨T, f, x, hexec⟩ := exec_trackerCommand hi s
  rw [hexec s rfl] at h
  cases h
  rw [hexec _ htracker]
  cases c <;> rfl

/-- R25: a command reads live cells only. -/
theorem exec_ignoresBuf {s : State} {b : List CodeUnit} (hs : s.Inv) (hlive : s.r.LiveIn b) (i : Instr) :
    IgnoresBuf (exec i) s b := by
  obtain ⟨-, -, -, hr, -, -⟩ := hs
  cases i with
  | rStart => exact ignoresBuf_rStart hlive
  | rBits n => exact ignoresBuf_readCode hr hlive _
  | rCode => exact ignoresBuf_readCode hr hlive _
  | wInit | wBits | wCode | wFlush => exact (onWriterSide_exec rfl s).ignoresBuf b
  | wtInit c n e => exact ignoresBuf_trackerCommand (.inl ⟨n, e, rfl⟩) s b
  | wtStep c => exact ignoresBuf_trackerCommand (.inr (.inl rfl)) s b
  | wtRead c f => exact ignoresBuf_trackerCommand (.inr (.inr ⟨f, rfl⟩)) s b
  | symDec u =>
    intro t h
    cases hvalue : valueFor u with
    | none =>
      rw [exec_symDec_of_none hvalue] at h
      cases h
      exact exec_symDec_of_none hvalue _
    | some v =>
      rw [exec_symDec_of_some hvalue] at h
      cases h
      exact exec_symDec_of_some hvalue _
  | status clr => cases clr <;> (intro t h; cases h; rfl)
  | nop | symEnc | rev16 | reserved =>
    intro t h
    cases h
    rfl

/-! ### Steps -/

/-- Settles O47: a command reads live cells only and writes none; a load writes the cells that then are live; a reset gives IN
fresh contents, the same in both. -/
theorem unloadedCellsAreNeverRead : Obligations.UnloadedCellsAreNeverRead := by
  intro s s' t hs hsame hstep
  obtain ⟨b, rfl, hlive⟩ := hsame.exists_withBuf
  rcases step_cases hstep with ⟨hp, rfl⟩ | ⟨a, rest, hp, hact⟩
  · exact ⟨_, idleBlockHoldsItsState _ hp, hsame⟩
  · have hp' : (s.withBuf b).pending = a :: rest := hp
    rw [step_of_pending hp']
    rcases hact with ⟨w, i, rfl, hd, hexec⟩ | ⟨w, e, rfl, hd, rfl⟩ | ⟨us, rfl, hus, rfl⟩ | ⟨k, rfl, hk, rfl⟩ | ⟨rfl, rfl⟩
    · obtain ⟨hbuf, hlen⟩ := exec_keeps_input hexec
      have hexec' := exec_ignoresBuf (s := { s with pending := rest }) hs hlive i t hexec
      exact ⟨_, (issue_of_decode_ok hd _).trans hexec', sameLiveCells_withBuf (hlive.of_same hbuf hlen)⟩
    · exact ⟨_, issue_of_decode_error hd _, sameLiveCells_withBuf hlive⟩
    · refine ⟨_, loadIn_of_le hus, rfl, ?_, fun j hj => ?_⟩
      · simp [State.withBuf, Reader.withBuf, hlive.1]
      · exact (List.getElem?_append_left hj).trans (List.getElem?_append_left hj).symm
    · exact ⟨_, drainOut_of_le hk, sameLiveCells_withBuf hlive⟩
    · exact ⟨_, rfl, rfl, rfl, fun _ _ => rfl⟩

end Sys2Proof.Machine

/-! The round trip: codes written, flushed, loaded and read back (20_memory.md R54). -/

namespace Sys2Proof.Machine

/-! ### Writing and flushing -/

/-- R54: the writes of the codes give the bits of the codes. -/
theorem writeCodes_flatMap (nb : BitVec 6) (codes : List (BitVec 6 × Data)) :
    (writeCodes codes).flatMap (writtenBits nb) = codesBits codes := by
  rw [writeCodes, List.flatMap_map]
  rfl

theorem isWrite_of_mem_writeCodes {codes : List (BitVec 6 × Data)} : ∀ i ∈ writeCodes codes, isWrite i = true :=
  List.forall_mem_map.2 fun _ _ => rfl

theorem codesBits_length (codes : List (BitVec 6 × Data)) : (codesBits codes).length = totalWidth codes := by
  simp [codesBits, totalWidth, List.length_flatMap]

/-- R114: how many units a flush appends where they fit. -/
def flushUnits (s : State) : Nat := if s.w.pos ≠ 0#3 ∨ s.cfg.flushEmpty = .zeroSymbol then 1 else 0

/-- R114: after a flush that fits OUT holds the whole stream, and padding behind it. -/
theorem exec_wFlush_empties {s : State} (hok : s.w.Ok) (hroom : s.w.out.length + flushUnits s ≤ s.cfg.outCap) :
    ∃ w got padding, exec .wFlush s = .next { s with w := w, results := got } ∧ w.out.length = s.w.out.length + flushUnits s ∧
      (∀ u ∈ w.out, isAlphabet u = true) ∧ unitBits w.out = s.w.stream ++ padding := by
  by_cases hpos : s.w.pos = 0#3
  · cases hmode : s.cfg.flushEmpty with
    | emitNone =>
      refine ⟨s.w, _, [], exec_wFlush_emitNone hpos hmode, by simp [flushUnits, hpos, hmode], hok.2.2, ?_⟩
      rw [Writer.stream_of_pos_eq_zero hpos, List.append_nil]
    | zeroSymbol =>
      have hone : flushUnits s = 1 := by simp [flushUnits, hmode]
      refine ⟨_, _, symbolBits 0#6, exec_wFlush_zeroSymbol hpos hmode (hone ▸ hroom), by simp [hone], (hok.append _).2.2, ?_⟩
      rw [Writer.stream_of_pos_eq_zero hpos, Writer.append_out, unitBits_append, unitBits_symbolFor]
  · have hone : flushUnits s = 1 := by simp [flushUnits, hpos]
    obtain ⟨out, got, hflush, hout, halphabet, hunits⟩ := exec_wFlush_pads hok hpos (hone ▸ hroom)
    exact ⟨_, got, _, hflush, hone ▸ hout, halphabet, hunits⟩

theorem execAll_singleton {i : Instr} {s t : State} (h : exec i s = .next t) : execAll [i] s = .next t := by
  rw [execAll, h]
  rfl

/-- R54: the codes written and flushed from any state leave OUT with their bits and padding, where it fits. -/
theorem execAll_writeCodes_flush (s : State) (codes : List (BitVec 6 × Data)) :
    let len := totalWidth codes / 6 + if totalWidth codes % 6 ≠ 0 ∨ s.cfg.flushEmpty = .zeroSymbol then 1 else 0
    len ≤ s.cfg.outCap →
    ∃ w got padding, execAll (.wInit :: writeCodes codes ++ [.wFlush]) s = .next { s with w := w, results := got } ∧
      w.out.length = len ∧ (∀ u ∈ w.out, isAlphabet u = true) ∧ unitBits w.out = codesBits codes ++ padding := by
  intro len hroom
  obtain ⟨w, got, hwrites, hok, hlength, hpos, hstream⟩ := execAll_writes_pack
    (s := State.answered { s with w := { acc := 0#6, pos := 0#3, out := [] } } 0#4 0#32) rfl isWrite_of_mem_writeCodes
    (writeCodes_flatMap _ codes) (by rw [codesBits_length]; exact (Nat.le_add_right _ _).trans hroom)
  rw [codesBits_length] at hlength hpos
  have hunits : totalWidth codes / 6 + flushUnits { s with w := w, results := got } = len := by
    have hheld : w.pos ≠ 0#3 ↔ totalWidth codes % 6 ≠ 0 := by
      rw [← hpos]
      exact not_congr (BitVec.toNat_inj (y := 0#3)).symm
    simp only [flushUnits, hheld, len]
  obtain ⟨w', got', padding, hflush, hout, halphabet, hbits⟩ := exec_wFlush_empties (s := { s with w := w, results := got }) hok
    (by rw [hlength, hunits]; exact hroom)
  refine ⟨w', got', padding, ?_, by rw [hout, hlength, hunits], halphabet, hstream ▸ hbits⟩
  rw [execAll_append, execAll, exec_wInit]
  simp only [hwrites]
  exact execAll_singleton hflush

/-! ### Reading -/

/-- R54: reads of the widths of the codes give the codes cut to their widths, where their bits stand next. -/
theorem execAll_readCodes {s : State} {codes : List (BitVec 6 × Data)} {padding : List Bool} (hok : s.r.Ok s.cfg.inCap)
    (hact : s.r.act = true) (hstream : s.r.stream = codesBits codes ++ padding) :
    ∃ u, execAll (readCodes codes) s = .next u ∧
      u.results = s.results ++ codes.map fun c => .response ⟨0#4, BitVec.ofNat 32 (c.2.toNat % 2 ^ c.1.toNat)⟩ := by
  induction codes generalizing s with
  | nil => exact ⟨s, rfl, by simp⟩
  | cons c codes ih =>
    have hcodes : s.r.stream = codeBits c.1.toNat c.2 ++ (codesBits codes ++ padding) := by
      rw [hstream, codesBits, List.flatMap_cons, List.append_assoc]
      rfl
    have hav : c.1.toNat ≤ s.r.avail := by
      rw [← hok.stream_length hact, hcodes, List.length_append, codeBits_length]
      omega
    obtain ⟨bs, r', hread, hlength, hnext, hok', -, -, hact', -⟩ := readCode_delivers hok hact hav
    obtain ⟨hbits, hrest⟩ := List.append_inj (hnext.symm.trans hcodes) (by rw [hlength, codeBits_length])
    have hexec : exec (.rBits c.1) s = .next _ := hread
    obtain ⟨u, hrun, hgot⟩ := ih (s := State.respond { s with r := r' } _) hok' hact' hrest
    refine ⟨u, ?_, hgot.trans ?_⟩
    · rw [readCodes, List.map_cons, execAll, hexec]
      exact hrun
    · rw [hbits, valueOfBits_codeBits]
      simp

/-- R54, R132: so they do from a loaded input that holds the bits of the codes and padding. -/
theorem execAll_rStart_readCodes {s : State} {codes : List (BitVec 6 × Data)} {us : List CodeUnit} {padding : List Bool}
    (hok : s.r.Ok s.cfg.inCap) (hloaded : s.r.loaded = us) (hlen : s.r.len ≠ 0) (halphabet : ∀ u ∈ us, isAlphabet u = true)
    (hbits : unitBits us = codesBits codes ++ padding) :
    ∃ u d, execAll (.rStart :: readCodes codes) s = .next u ∧
      u.results = s.results ++ [.response ⟨0#4, d⟩] ++
        codes.map fun c => .response ⟨0#4, BitVec.ofNat 32 (c.2.toNat % 2 ^ c.1.toNat)⟩ := by
  subst hloaded
  have hvalid : s.r.firstInvalid = none := by
    refine List.findIdx?_eq_none_iff.2 fun u hu => ?_
    simpa [Option.isSome_iff_ne_none] using halphabet u hu
  obtain ⟨u, hrun, hgot⟩ := execAll_readCodes
    (s := State.respond { s with r := { s.r.close with act := true } } (BitVec.ofNat 32 s.r.len))
    (hok.opened hlen hvalid) rfl hbits
  refine ⟨u, _, ?_, hgot⟩
  rw [execAll, exec_rStart_valid hlen hvalid]
  exact hrun

/-- R59: a step that loads `us`. -/
theorem step_loadIn {s : State} {us : List CodeUnit} (h : us.length ≤ s.cfg.inCap) :
    step { s with pending := [.loadIn us] } = .next
      { s with pending := [], r := { s.r.close with buf := us ++ s.r.buf.drop us.length, len := us.length } } :=
  loadIn_of_le (s := { s with pending := [] }) h

/-- Settles O51: OUT holds the bits of the codes and padding after the flush, so does the stream of the session opened on it,
and each read takes the bits of its code. -/
theorem writtenCodesReadBack : Obligations.WrittenCodesReadBack := by
  intro s codes hs _ T len hT hout hin
  obtain ⟨-, -, -, hr, -, -⟩ := hs
  obtain ⟨w, got, padding, hwrite, hlength, halphabet, hbits⟩ := execAll_writeCodes_flush s codes hout
  have hlen : w.out.length = len := hlength
  have hfits : w.out.length ≤ s.cfg.inCap := hlen ▸ hin
  have hpositive : w.out.length ≠ 0 := by
    have hheld : T / 6 = 0 → T % 6 ≠ 0 := by omega
    by_cases h0 : T / 6 = 0
    · simp [hlen, len, hheld h0]
    · omega
  refine ⟨_, hwrite, hlen, _, step_loadIn (s := { s with w := w, results := got }) hfits, ?_⟩
  exact execAll_rStart_readCodes (hr.load hfits) List.take_left hpositive halphabet hbits

end Sys2Proof.Machine
